-- ==== Sys2Proof/Word.lean ====
section
/-! DEFINITION. The two word types of the engine: every wire symbol is one byte and every checksum is 16 bits
(00_scope.md R11, R13, R14). All arithmetic on them is unsigned and truncating, which is what BitVec's is. -/

namespace Sys2Proof

/-- A byte: 8 bits, values 0..255 (R13). -/
abbrev Byte := BitVec 8

/-- A 16-bit value, 0..65535 (R13). -/
abbrev Half := BitVec 16

end Sys2Proof
end

