-- ==== Sys2Proof/Syntax.lean ====
section
/-! DEFINITION. The eight host operations of 30_encoding.md R66 with their operands (R68). There are no others. -/

namespace Sys2Proof

/-- One bit for each of the four callback slots, in the order of the mask bits of R68: the SET_CALLBACKS operand, and
the host's bindings (which slots it has replaced since INIT). -/
structure CallbackSlots where
  /-- `m[0]`, the output-byte slot. -/
  out : Bool
  /-- `m[1]`, the input-byte slot. -/
  inp : Bool
  /-- `m[2]`, the message-decoded slot. -/
  msg : Bool
  /-- `m[3]`, the acknowledgment slot. -/
  ack : Bool
  deriving DecidableEq, Repr

/-- The host operations, one constructor per row of the opcode table (R66). -/
inductive Instr where
  /-- `INIT c` (R130). `c` is an unsigned integer; only the encoded form bounds it by one byte, and "the same fault
  applies for `c > 255`, which only the abstract operation can carry". -/
  | init (c : Nat)
  /-- `DISPATCH none` or `DISPATCH b` (R100). -/
  | dispatch (input : Option Byte)
  /-- `SEND cmd, data` (R90). -/
  | send (cmd : Byte) (data : List Byte)
  /-- `SEND_ACK` (R92). -/
  | sendAck
  /-- `SEND_NAK` (R93). -/
  | sendNak
  /-- `CHECKSUM data` (R83). -/
  | checksum (data : List Byte)
  /-- `ABORT` (R133). -/
  | abort
  /-- `SET_CALLBACKS m` (R131). The mask's bits 7:4 must be 0 (R68, R69), so a mask is four bits. -/
  | setCallbacks (mask : CallbackSlots)
  deriving DecidableEq, Repr

end Sys2Proof
end

