-- ==== Sys2Proof/Machine/Operands.lean ====
section
/-! DEFINITION. Operand assembly: how bytes, 16-bit values and the slot mask are put together and taken apart
(00_scope.md R13, R14; 20_memory.md R42; 30_encoding.md R68). Byte order is decided here and nowhere else. -/

namespace Sys2Proof

/-- `zext_16(b)`: a byte with zeros above (R14). -/
def zext16 (b : Byte) : Half := b.setWidth 16

/-- `v[7:0]`. -/
def lowByte (v : Half) : Byte := v.extractLsb' 0 8

/-- `v[15:8]`. -/
def highByte (v : Half) : Byte := v.extractLsb' 8 8

/-- The 16-bit value carried low byte first: `zext_16(lo) | (zext_16(hi) << 8)` (R42, R68). -/
def half (lo hi : Byte) : Half := zext16 lo ||| (zext16 hi <<< 8)

/-- `rx_crc` with CRC_LO written to its bits 7:0 (R107). -/
def withLowByte (v : Half) (b : Byte) : Half := (v &&& 0xFF00) ||| zext16 b

/-- `rx_crc` with CRC_HI written to its bits 15:8 (R108). -/
def withHighByte (v : Half) (b : Byte) : Half := (v &&& 0x00FF) ||| (zext16 b <<< 8)

/-- The OP field `h[3:0]` of a transaction's first byte (R67). -/
def opField (h : Byte) : BitVec 4 := h.extractLsb' 0 4

/-- The V bit `h[4]` (R67). -/
def vBit (h : Byte) : Bool := h.getLsbD 4

/-- The RSV field `h[7:5]` (R67). -/
def rsvField (h : Byte) : BitVec 3 := h.extractLsb' 5 3

/-- The slots a mask byte selects (R68). -/
def slotsOfMask (m : Byte) : CallbackSlots :=
  { out := m.getLsbD 0, inp := m.getLsbD 1, msg := m.getLsbD 2, ack := m.getLsbD 3 }

/-- The reserved bits `m[7:4]` of a mask byte, which must be 0 (R68, R69). -/
def maskReserved (m : Byte) : BitVec 4 := m.extractLsb' 4 4

/-- The mask byte of a set of slots (R68). -/
def maskOfSlots (k : CallbackSlots) : Byte :=
  (BitVec.ofBool k.out).setWidth 8 ||| ((BitVec.ofBool k.inp).setWidth 8 <<< 1) |||
    ((BitVec.ofBool k.msg).setWidth 8 <<< 2) ||| ((BitVec.ofBool k.ack).setWidth 8 <<< 3)

/-- Every slot at its default. -/
def CallbackSlots.none : CallbackSlots := { out := false, inp := false, msg := false, ack := false }

/-- The slots of either set. -/
def CallbackSlots.union (a b : CallbackSlots) : CallbackSlots :=
  { out := a.out || b.out, inp := a.inp || b.inp, msg := a.msg || b.msg, ack := a.ack || b.ack }

end Sys2Proof
end

