-- ==== Sys2Proof/Config.lean ====
section
/-! DEFINITION. The implementation parameters of 00_scope.md R11: the open ones as the fields of `Config`, which State
holds and no operation writes (10_state.md R32), and the fixed ones as constants. -/

namespace Sys2Proof

/-- The configuration constants of R32. The three markers are OPEN: no source gives a value (R63, N1), so they are data
of the machine and every statement holds for every value of them. `midframeResync` is `P_MIDFRAME_RESYNC`: `false` on
this hardware, kept so that claims about the operations can be stated under both readings (R109); a step refuses `true`
(R162, log 8). -/
structure Config where
  /-- `P_START_BYTE`. -/
  startByte : Byte
  /-- `P_ACK_BYTE`. -/
  ackByte : Byte
  /-- `P_NAK_BYTE`. -/
  nakByte : Byte
  /-- `P_MIDFRAME_RESYNC`. -/
  midframeResync : Bool
  deriving DecidableEq, Repr

/-- The test configuration TC of 95_test_vectors.md section 0. "They are not the hardware's values, which no source
gives": it stands in State.reset as a stand-in only (DESIGN CHOICE, log 1). -/
def Config.testConfiguration : Config :=
  { startByte := 0xC0, ackByte := 0xC1, nakByte := 0xC2, midframeResync := false }

/-- The CRC polynomial (R11, R4). -/
def crcPolynomial : Half := 0x1021

/-- The CRC initial value (R11, R4). -/
def crcInitialValue : Half := 0xFFFF

/-- The largest capacity an instance may have (R11; D3). -/
def maxCapacity : Nat := 255

/-- The largest SEND or CHECKSUM data length in one host transaction (R11; D10). -/
def maxDataLength : Nat := 65535

end Sys2Proof
end

