-- ==== Sys2Proof/Machine/State.lean ====
section
/-! DEFINITION. The state of one Protocol Instance (10_state.md R20), the configuration it runs under (R32), and the
host side of its ports as plain data: what the host has issued, bound and received (30_encoding.md R60), and the faults
and refusals recorded (60_exceptions.md R142). -/

namespace Sys2Proof.Machine

/-- The parser-state register `st` (R22). -/
inductive ParserState where
  | idle
  | readCommand
  | readLength
  | readData
  | readChecksum
  deriving DecidableEq, Repr

/-- The 3-bit encoding of `st` (R22; D21). Values 5..7 are never present. -/
def ParserState.code : ParserState → BitVec 3
  | .idle => 0
  | .readCommand => 1
  | .readLength => 2
  | .readData => 3
  | .readChecksum => 4

/-- The payload buffer's contents: the listed bytes, indices strictly rising, none equal to `unlistedByte`. -/
abbrev Memory := List Host.Cell

/-- What an index that is not listed reads as: INIT and every start marker zero the buffer (R38, R31). -/
def unlistedByte : Byte := 0x00

/-- The registers of one instance, in the order of R20's table. -/
structure Engine where
  live : Bool
  st : ParserState
  cap : BitVec 8
  msgCmd : BitVec 8
  msgLen : BitVec 8
  payload : Memory
  rxCount : BitVec 8
  crcCount : BitVec 2
  rxCrc : BitVec 16
  deriving DecidableEq, Repr

/-- The operand of `AckReceived` (R60). -/
inductive AckKind where
  | positive
  | negative
  deriving DecidableEq, Repr

/-- The out-events (R60). A `messageDecoded` carries a copy of the message (20_memory.md R54). -/
inductive OutEvent where
  | outByte (b : Byte)
  | messageDecoded (cmd len : Byte) (data : List Byte)
  | ackReceived (k : AckKind)
  | checksumResult (v : Half)
  deriving DecidableEq, Repr

/-- Why an operation ends in a fault. -/
inductive Fault where
  /-- CAPACITY_INVALID (R144). Raised by INIT with `c = 0` or `c > 255`. The spec's own fault: exact. -/
  | capacityInvalid
  /-- A payload access outside 0..cap-1. Raised by DISPATCH through `memRead` and `memWrite`. The model's own (log 12):
  the spec says no rule issues such an access (R16), and no state that meets the invariant of R35 raises it. Safe. -/
  | payloadIndexOutOfRange
  deriving DecidableEq, Repr

/-- Why an operation is refused. -/
inductive Refusal where
  /-- The instruction has no meaning in the model. Raised by no arm of `exec`. Safe. -/
  | notModelled (mnemonic : String)
  /-- RESERVED_ENCODING (R145, R69). Raised by the host port when a transaction does not decode. Safe. -/
  | reservedEncoding
  /-- NOT_INITIALIZED (R145, R134). Raised by every operation but INIT while `live = 0`. Safe. -/
  | notInitialized
  /-- CONFIG_INVALID (R145, R12, R162). Raised by the host port when the markers are not pairwise distinct or
  `P_MIDFRAME_RESYNC` is not `false`. Safe. -/
  | configInvalid
  /-- HOST_REENTRANT (R145, R166). Raised by the host port for a transaction issued while another operation of the same
  instance was running. Safe. -/
  | hostReentrant
  deriving DecidableEq, Repr

/-- What is recorded of an operation that did not end normally (R142). "A fault records its reason and the operation"
(R144); of a refusal the spec records the refusal itself, which is its reason. -/
inductive Recorded where
  | fault (reason : Fault) (op : Instr)
  | refusal (reason : Refusal)
  deriving DecidableEq, Repr

/-- A host transaction: a byte string (R67). `overlapping` says that the host issued it while another operation of this
instance was running, from inside a callback or from a second thread (R166). -/
structure Transaction where
  bytes : List Byte
  overlapping : Bool
  deriving DecidableEq, Repr

/-- The whole machine. -/
structure State where
  /-- The configuration constants (R32). No operation writes them. -/
  cfg : Config
  /-- The registers of R20. -/
  eng : Engine
  /-- Which callback slots the host has replaced since INIT (R131, R132). Host side. -/
  bindings : CallbackSlots
  /-- The transactions issued and not yet taken, oldest first (R47, R60). Host side. -/
  port : List Transaction
  /-- Every event emitted, oldest first (R48). -/
  events : List OutEvent
  /-- The events that reached a callback the host bound, or its CHECKSUM call (R132). Host side. -/
  delivered : List OutEvent
  /-- The faults and refusals recorded, oldest first; never cleared (R142). -/
  record : List Recorded
  deriving DecidableEq, Repr

/-- The registers before the first INIT. Only `live` has a value in the spec (R37); the others are unspecified there and
hold a value the model names: `Idle` and zeros (DESIGN CHOICE, log 2). -/
def Engine.beforeInit : Engine :=
  { live := false, st := .idle, cap := 0, msgCmd := 0, msgLen := 0, payload := [], rxCount := 0, crcCount := 0, rxCrc := 0 }

/-- The machine before the first INIT under the configuration `k`, with nothing issued. -/
def State.resetWith (k : Config) : State :=
  { cfg := k, eng := Engine.beforeInit,
    bindings := { out := false, inp := false, msg := false, ack := false },
    port := [], events := [], delivered := [], record := [] }

/-- The machine before the first INIT. The markers are the test configuration, a stand-in for the open parameters
(DESIGN CHOICE, log 1): no statement rests on them. -/
def State.reset : State := State.resetWith Config.testConfiguration

end Sys2Proof.Machine
end

