-- ==== Sys2Proof/Machine/Ops.lean ====
section
/-! DEFINITION. The shared operations: the payload buffer (00_scope.md R16, 20_memory.md R40), the whole-state updates,
the event port (R17, R60), the `live` check (43_instance.md R134), and what is done with an operation's outcome (R142).
The engine has no trap: no operation saves state or transfers control (R146, R149), so taking an exception is the one
operation `settle`, which records a fault or a refusal and leaves the instance unchanged. -/

namespace Sys2Proof.Machine

/-- How an operation ends (R142): normal, fault or refusal. -/
abbrev Result := Host.Outcome State Fault Refusal

/-! ### The payload buffer -/

/-- The canonical form: indices strictly rising, no listed byte equal to what an unlisted index reads as. -/
abbrev Memory.wf (m : Memory) : Prop :=
  m.Pairwise (fun a b => a.1 < b.1) ∧ ∀ c ∈ m, c.2 ≠ unlistedByte

/-- Every listed index is below `n`. -/
abbrev Memory.within (m : Memory) (n : Nat) : Prop := ∀ c ∈ m, c.1 < n

/-- The byte at an index. -/
def Memory.get : Memory → Nat → Byte
  | [], _ => unlistedByte
  | (a, v) :: m, i => if a = i then v else Memory.get m i

/-- List a byte at an index below every listed one, unless it is what an unlisted index reads as. -/
def Memory.cons (i : Nat) (v : Byte) (m : Memory) : Memory :=
  if v = unlistedByte then m else (i, v) :: m

/-- Store a byte at an index, keeping the canonical form. -/
def Memory.put : Memory → Nat → Byte → Memory
  | [], i, v => Memory.cons i v []
  | (a, x) :: m, i, v =>
    if i < a then Memory.cons i v ((a, x) :: m)
    else if i = a then Memory.cons i v m
    else (a, x) :: Memory.put m i v

/-- Every byte 0: what the loop of MemWrite(i, 1, 0x00) over every index leaves (R101, R130). -/
def Memory.zeros : Memory := []

/-- `MemRead(i, 1)`: legal for 0 <= i < cap (R16). -/
def Engine.memRead (e : Engine) (i : Nat) : Except Fault Byte :=
  if i < e.cap.toNat then .ok (e.payload.get i) else .error .payloadIndexOutOfRange

/-- `MemWrite(i, 1, v)`: legal for 0 <= i < cap (R16). -/
def Engine.memWrite (e : Engine) (i : Nat) (v : Byte) : Except Fault Engine :=
  if i < e.cap.toNat then .ok { e with payload := e.payload.put i v } else .error .payloadIndexOutOfRange

/-- `[MemRead(i,1), ..., MemRead(i+n-1,1)]`, in index order (R108). -/
def Engine.memReadRun (e : Engine) (i : Nat) : Nat → Except Fault (List Byte)
  | 0 => .ok []
  | n + 1 =>
    match e.memRead i with
    | .error f => .error f
    | .ok b =>
      match e.memReadRun (i + 1) n with
      | .error f => .error f
      | .ok bs => .ok (b :: bs)

/-! ### Updates of the state -/

/-- The state with other register contents. -/
def State.withEngine (s : State) (e : Engine) : State := { s with eng := e }

/-- The state with other callback bindings (host side, R131). -/
def State.withBindings (s : State) (k : CallbackSlots) : State := { s with bindings := k }

/-- The state with other transactions waiting. -/
def State.withPort (s : State) (p : List Transaction) : State := { s with port := p }

/-- Record a fault or a refusal; nothing else changes (R142). -/
def State.note (s : State) (r : Recorded) : State := { s with record := s.record ++ [r] }

/-- Whether a bound callback, or the caller of CHECKSUM, gets the event (R60, R132): the default output sink discards,
the default message and acknowledgment handlers do nothing, and ChecksumResult is a return value. -/
def slotReceives (k : CallbackSlots) : OutEvent → Bool
  | .outByte _ => k.out
  | .messageDecoded _ _ _ => k.msg
  | .ackReceived _ => k.ack
  | .checksumResult _ => true

/-- `emit` of events in order (R17). An event is produced whatever is bound (R132); the binding decides what reaches the
host. -/
def State.emit (s : State) (es : List OutEvent) : State :=
  { s with events := s.events ++ es, delivered := s.delivered ++ es.filter (slotReceives s.bindings) }

/-- The acknowledgment byte: one operation for SEND_ACK and for the parser's own (R92, R94). -/
def ackEvent (s : State) : OutEvent := .outByte s.cfg.ackByte

/-- The negative-acknowledgment byte: one operation for SEND_NAK and for the parser's own (R93, R94). -/
def nakEvent (s : State) : OutEvent := .outByte s.cfg.nakByte

/-- The `live` check that every operation but INIT makes first (R134, R143). -/
def whenLive (s : State) (r : Result) : Result :=
  if s.eng.live = true then r else .refused .notInitialized

/-- What the machine does with the outcome of operation `i` taken in state `s` (R142): a normal
outcome stands; CAPACITY_INVALID and a refusal leave the instance as it was and are recorded. The model's own fault, of
which the spec has no run (log 12), stops the machine. -/
def settle (i : Instr) (s : State) : Result → Result
  | .next t => .next t
  | .fault .capacityInvalid => .next (s.note (.fault .capacityInvalid i))
  | .fault .payloadIndexOutOfRange => .fault .payloadIndexOutOfRange
  | .refused r => .next (s.note (.refusal r))

end Sys2Proof.Machine
end

