-- ==== Sys2Proof/Machine/Flags.lean ====
section
/-! DEFINITION. The engine has no status flag, condition code or predicate (10_state.md R30): "whether a received checksum
matches is decided and acted on within one DISPATCH. No register stores the result". These are the conditions a
DISPATCH decides on, the causes of the two protocol errors of 60_exceptions.md R140. -/

namespace Sys2Proof.Machine

/-- The cause of E_LENGTH_OVER_CAPACITY: a LEN byte above the capacity (R104, R140). -/
def lengthOverCapacity (len cap : Byte) : Bool := cap.ult len

/-- The received checksum equals the one computed over the payload; its failure is the cause of E_CHECKSUM_MISMATCH
(R108, R140). -/
def checksumMatches (rxCrc : Half) (data : List Byte) : Bool := rxCrc == crc16 data

/-- `P_MIDFRAME_RESYNC` and a start marker in the middle of a frame (R100, R109). Never so on this hardware,
where the host port refuses every operation of a configuration with the value `true` (R162, log 8). -/
def restartsFrame (s : State) (b : Byte) : Bool :=
  s.cfg.midframeResync && s.eng.st != .idle && b == s.cfg.startByte

end Sys2Proof.Machine
end

