-- ==== Sys2Proof/Machine/Decoder.lean ====
section
/-! DEFINITION. The frame parser and ACK/NAK sequencer (42_decoder.md): one function per transition of the source's
table, and the DISPATCH operation over them. -/

namespace Sys2Proof.Machine

/-- The registers after a start marker is accepted (R101, R31). -/
def beginFrame (e : Engine) : Engine :=
  { e with msgCmd := 0, msgLen := 0, payload := Memory.zeros, rxCount := 0, crcCount := 0, rxCrc := 0, st := .readCommand }

/-- `Idle`: a start marker begins a frame (R101); an acknowledgment byte is reported and any other byte discarded
(R102). -/
def idleByte (b : Byte) (s : State) : Result :=
  if b = s.cfg.startByte then .next (s.withEngine (beginFrame s.eng))
  else if b = s.cfg.ackByte then .next (s.emit [.ackReceived .positive])
  else if b = s.cfg.nakByte then .next (s.emit [.ackReceived .negative])
  else .next s

/-- `ReadCommand` (R103). -/
def readCommand (b : Byte) (s : State) : Result :=
  .next (s.withEngine { s.eng with msgCmd := b, st := .readLength })

/-- `ReadLength` (R104, R105). -/
def readLength (b : Byte) (s : State) : Result :=
  let e := { s.eng with msgLen := b }
  if lengthOverCapacity b e.cap then .next ((s.withEngine { e with st := .idle }).emit [nakEvent s])
  else if b = 0 then .next (s.withEngine { e with st := .readChecksum })
  else .next (s.withEngine { e with st := .readData })

/-- `ReadData` (R106). -/
def readData (b : Byte) (s : State) : Result :=
  match s.eng.memWrite s.eng.rxCount.toNat b with
  | .error f => .fault f
  | .ok e =>
    let e := { e with rxCount := e.rxCount + 1 }
    .next (s.withEngine (if e.rxCount = e.msgLen then { e with st := .readChecksum } else e))

/-- `ReadChecksum`, first byte (R107). -/
def readCrcLo (b : Byte) (s : State) : Result :=
  .next (s.withEngine { s.eng with rxCrc := withLowByte s.eng.rxCrc b, crcCount := 1 })

/-- `ReadChecksum`, second byte (R108): verify, deliver, acknowledge. -/
def readCrcHi (b : Byte) (s : State) : Result :=
  let e := { s.eng with rxCrc := withHighByte s.eng.rxCrc b, crcCount := 2, st := .idle }
  match e.memReadRun 0 e.msgLen.toNat with
  | .error f => .fault f
  | .ok data =>
    if checksumMatches e.rxCrc data then
      .next ((s.withEngine e).emit [.messageDecoded e.msgCmd e.msgLen data, ackEvent s])
    else .next ((s.withEngine e).emit [nakEvent s])

/-- The transition that the parser state selects for a byte (R64, R100). -/
def transition (b : Byte) (s : State) : Result :=
  match s.eng.st with
  | .idle => idleByte b s
  | .readCommand => readCommand b s
  | .readLength => readLength b s
  | .readData => readData b s
  | .readChecksum => if s.eng.crcCount = 0 then readCrcLo b s else readCrcHi b s

/-- One received byte (R100), with the mid-frame restart of R109 that this hardware never takes. -/
def dispatchByte (b : Byte) (s : State) : Result :=
  if restartsFrame s b then transition b (s.withEngine { s.eng with st := .idle }) else transition b s

/-- DISPATCH (R100): with no byte it returns at once and nothing changes (R111). -/
def execDispatch (input : Option Byte) (s : State) : Result :=
  match input with
  | none => whenLive s (.next s)
  | some b => whenLive s (dispatchByte b s)

end Sys2Proof.Machine
end

