-- ==== Sys2Proof/Machine/Encoder.lean ====
section
/-! DEFINITION. The frame encoder and the ACK/NAK emitters (41_encoder.md). None of them writes a register (10_state.md
R39). -/

namespace Sys2Proof.Machine

/-- `frameBytes(cmd, data, maxLen)` (R91): the data is cut to its first `maxLen` bytes with no signal (R95), and the
checksum covers only the bytes sent, low byte first (R42). R91 gives it for `maxLen` in 1..255. Outside that range no
behaviour may be assumed (91_not_in_source.md N9), and the result is the model's own (DESIGN CHOICE, log 18): the same
expression, so LEN 0 and no data for 0, and LEN the low eight bits of the count above 255. -/
def frameBytes (k : Config) (cmd : Byte) (data : List Byte) (maxLen : Nat) : List Byte :=
  let d := data.take maxLen
  [k.startByte, cmd, BitVec.ofNat 8 d.length] ++ d ++ [lowByte (crc16 d), highByte (crc16 d)]

/-- SEND (R90): emit the frame, cut to the instance's capacity. -/
def execSend (cmd : Byte) (data : List Byte) (s : State) : Result :=
  whenLive s (.next (s.emit ((frameBytes s.cfg cmd data s.eng.cap.toNat).map .outByte)))

/-- SEND_ACK (R92). -/
def execSendAck (s : State) : Result := whenLive s (.next (s.emit [ackEvent s]))

/-- SEND_NAK (R93). -/
def execSendNak (s : State) : Result := whenLive s (.next (s.emit [nakEvent s]))

end Sys2Proof.Machine
end

