-- ==== Sys2Proof/Machine/Instance.lean ====
section
/-! DEFINITION. The Protocol Instance operations (43_instance.md). -/

namespace Sys2Proof.Machine

/-- The registers after INIT with capacity `c` (R130, R38). -/
def initialized (c : Byte) : Engine :=
  { live := true, cap := c, payload := Memory.zeros, msgCmd := 0, msgLen := 0, rxCount := 0, crcCount := 0, rxCrc := 0,
    st := .idle }

/-- INIT (R130): the only operation allowed before the first INIT, and on a live instance a full reset (R161). On the
host side every callback slot reverts to its default. -/
def execInit (c : Nat) (s : State) : Result :=
  if c = 0 ∨ maxCapacity < c then .fault .capacityInvalid
  else .next ((s.withEngine (initialized (BitVec.ofNat 8 c))).withBindings CallbackSlots.none)

/-- SET_CALLBACKS (R131): no register is written and no event emitted; on the host side the selected bindings are
replaced. -/
def execSetCallbacks (mask : CallbackSlots) (s : State) : Result :=
  whenLive s (.next (s.withBindings (s.bindings.union mask)))

/-- ABORT (R133): writes `st` only. -/
def execAbort (s : State) : Result :=
  whenLive s (.next (s.withEngine { s.eng with st := .idle }))

end Sys2Proof.Machine
end

