-- ==== Sys2Proof/Machine/Dispatch.lean ====
section
/-! DEFINITION. The meaning of each host operation (30_encoding.md R66), one arm per row of the opcode table. -/

namespace Sys2Proof.Machine

/-- What an operation does to the machine (60_exceptions.md R142). -/
def exec (i : Instr) (s : State) : Host.Outcome State Fault Refusal :=
  match i with
  | .init c => Sys2Proof.Machine.execInit c s
  | .dispatch input => Sys2Proof.Machine.execDispatch input s
  | .send cmd data => Sys2Proof.Machine.execSend cmd data s
  | .sendAck => Sys2Proof.Machine.execSendAck s
  | .sendNak => Sys2Proof.Machine.execSendNak s
  | .checksum data => Sys2Proof.Machine.execChecksum data s
  | .abort => Sys2Proof.Machine.execAbort s
  | .setCallbacks mask => Sys2Proof.Machine.execSetCallbacks mask s

end Sys2Proof.Machine
end

