-- ==== Sys2Proof/WellFormed.lean ====
section
/-! DEFINITION. Which operations have a host transaction, that is an encoding (30_encoding.md R67, R68): the capacity
fits one byte and a data count fits 16 bits. A zero capacity is well-formed: it is encoded, and faults (R130). -/

namespace Sys2Proof

/-- The operation has an encoding. -/
def Instr.wellFormed : Instr → Bool
  | .init c => c ≤ maxCapacity
  | .dispatch _ => true
  | .send _ data => data.length ≤ maxDataLength
  | .sendAck => true
  | .sendNak => true
  | .checksum data => data.length ≤ maxDataLength
  | .abort => true
  | .setCallbacks _ => true

end Sys2Proof
end

