-- ==== Sys2Proof/Decode.lean ====
section
/-! DEFINITION. The host transaction decoder and encoder (30_encoding.md R67 to R70). Decoding reads ONE transaction at
the front of a byte string and gives it with the bytes after it ("The first byte alone fixes a transaction's length, or
the first byte and the count", R70). It is total: every illegal transaction of R69 is rejected by name. -/

namespace Sys2Proof

/-- Why a transaction is illegal: the five lines of R69, in its order. All are the one refusal RESERVED_ENCODING. -/
inductive DecodeError where
  /-- OP in 0x8..0xF. -/
  | reservedOp
  /-- RSV is not 0. -/
  | reservedBits
  /-- V = 1 and OP is not DISPATCH's. -/
  | strayV
  /-- A SET_CALLBACKS mask with `m[7:4]` not 0. -/
  | reservedMask
  /-- Shorter than the length R67 gives it. -/
  | tooShort
  deriving DecidableEq, Repr

/-- What decoding gives: an operation and the bytes after its transaction, or why there is none. -/
abbrev Decoded := Except DecodeError (Instr × List Byte)

/-- The next `n` bytes and the rest, if there are that many. -/
def splitBytes (n : Nat) (bs : List Byte) : Option (List Byte × List Byte) :=
  if n ≤ bs.length then some (bs.take n, bs.drop n) else none

/-- A 16-bit count low byte first, then that many data bytes (R68). -/
def decodeData : List Byte → Option (List Byte × List Byte)
  | lo :: hi :: bs => splitBytes (half lo hi).toNat bs
  | _ => none

/-- INIT's operand byte. -/
def decodeInit : List Byte → Decoded
  | c :: bs => .ok (.init c.toNat, bs)
  | [] => .error .tooShort

/-- DISPATCH's operand: none when V = 0, the next byte when V = 1. -/
def decodeDispatch (v : Bool) (bs : List Byte) : Decoded :=
  match v, bs with
  | false, bs => .ok (.dispatch none, bs)
  | true, b :: bs => .ok (.dispatch (some b), bs)
  | true, [] => .error .tooShort

/-- SEND's command byte, count and data. -/
def decodeSend : List Byte → Decoded
  | cmd :: bs =>
    match decodeData bs with
    | some (data, tail) => .ok (.send cmd data, tail)
    | none => .error .tooShort
  | [] => .error .tooShort

/-- CHECKSUM's count and data. -/
def decodeChecksum (bs : List Byte) : Decoded :=
  match decodeData bs with
  | some (data, tail) => .ok (.checksum data, tail)
  | none => .error .tooShort

/-- SET_CALLBACKS's mask byte. -/
def decodeSetCallbacks : List Byte → Decoded
  | m :: bs => if maskReserved m = 0 then .ok (.setCallbacks (slotsOfMask m), bs) else .error .reservedMask
  | [] => .error .tooShort

/-- The operands that follow a header byte that has passed the checks on OP, RSV and V (R66, R67). -/
def decodeOperands (op : BitVec 4) (v : Bool) (bs : List Byte) : Decoded :=
  match op.toNat with
  | 0x0 => decodeInit bs
  | 0x1 => decodeDispatch v bs
  | 0x2 => decodeSend bs
  | 0x3 => .ok (.sendAck, bs)
  | 0x4 => .ok (.sendNak, bs)
  | 0x5 => decodeChecksum bs
  | 0x6 => .ok (.abort, bs)
  | 0x7 => decodeSetCallbacks bs
  | _ => .error .reservedOp

/-- Decode the transaction at the front of a byte string (R67 to R70). -/
def decode : List Byte → Decoded
  | [] => .error .tooShort
  | h :: bs =>
    if 8 ≤ (opField h).toNat then .error .reservedOp
    else if rsvField h ≠ 0 then .error .reservedBits
    else if vBit h = true ∧ opField h ≠ 1 then .error .strayV
    else decodeOperands (opField h) (vBit h) bs

/-- A data operand as it is carried: its count low byte first, then the bytes (R67). -/
def encodeData (data : List Byte) : List Byte :=
  lowByte (BitVec.ofNat 16 data.length) :: highByte (BitVec.ofNat 16 data.length) :: data

/-- The transaction of an operation (R67). For an operation that is not well-formed it is not an encoding of it. -/
def encode : Instr → List Byte
  | .init c => [0x00, BitVec.ofNat 8 c]
  | .dispatch none => [0x01]
  | .dispatch (some b) => [0x11, b]
  | .send cmd data => 0x02 :: cmd :: encodeData data
  | .sendAck => [0x03]
  | .sendNak => [0x04]
  | .checksum data => 0x05 :: encodeData data
  | .abort => [0x06]
  | .setCallbacks mask => [0x07, maskOfSlots mask]

/-- Byte `k` of a number whose bits are numbered as the opcode table numbers them: the first byte is bits 7:0. -/
def tableByte (w k : Nat) : Byte := BitVec.ofNat 8 (w >>> (8 * k))

/-- The length in bytes of the transaction whose first four bytes are given (R67, R70); 1 for a refused first byte. -/
def transactionLength (h b1 b2 b3 : Byte) : Nat :=
  match h.toNat with
  | 0x00 => 2
  | 0x11 => 2
  | 0x07 => 2
  | 0x02 => 4 + (half b2 b3).toNat
  | 0x05 => 3 + (half b1 b2).toNat
  | _ => 1

/-- The byte string of an opcode-table word: the first `nbits` bits of `w`, then zeros, as long as its own transaction. -/
def tableBytes (nbits w : Nat) : List Byte :=
  let v := w % 2 ^ nbits
  let n := transactionLength (tableByte v 0) (tableByte v 1) (tableByte v 2) (tableByte v 3)
  (List.range n).map (tableByte v)

/-- The operation the decoder reads from an opcode-table word. -/
def decodeTableWord (nbits w : Nat) : Option Instr :=
  match decode (tableBytes nbits w) with
  | .ok (i, _) => some i
  | .error _ => none

end Sys2Proof
end

