-- ==== Sys2Proof/Machine/HostPort.lean ====
section
/-! DEFINITION. The host operation port (30_encoding.md R60): taking the next transaction the host has issued, with the
checks that come before any operation (60_exceptions.md R143, R145), and placing one on it. -/

namespace Sys2Proof.Machine

/-- The markers are pairwise distinct (00_scope.md R12). -/
abbrev markersDistinct (k : Config) : Prop :=
  k.startByte ≠ k.ackByte ∧ k.startByte ≠ k.nakByte ∧ k.ackByte ≠ k.nakByte

/-- The configuration R162 asks for before any operation: distinct markers, and `P_MIDFRAME_RESYNC = false` (log 8). -/
abbrev validConfig (k : Config) : Prop := markersDistinct k ∧ k.midframeResync = false

/-- What taking a transaction gives. -/
inductive Taken where
  /-- Nothing has been issued. -/
  | nothing
  /-- The transaction is refused: the state without it, and the reason. -/
  | refused (s : State) (r : Refusal)
  /-- An operation to run: the state without its transaction. -/
  | operation (i : Instr) (s : State)
  deriving DecidableEq, Repr

/-- The port with the bytes after a transaction put back in front: they are the next transaction (R70; log 4). -/
def requeue (tail : List Byte) (rest : List Transaction) : List Transaction :=
  if tail = [] then rest else { bytes := tail, overlapping := false } :: rest

/-- Take the next transaction, oldest first (20_memory.md R47): the configuration check, the check that no operation of
this instance is running (log 7), then decoding. -/
def takeTransaction (s : State) : Taken :=
  match s.port with
  | [] => .nothing
  | t :: rest =>
    if ¬ validConfig s.cfg then .refused (s.withPort rest) .configInvalid
    else if t.overlapping = true then .refused (s.withPort rest) .hostReentrant
    else
      match decode t.bytes with
      | .error _ => .refused (s.withPort rest) .reservedEncoding
      | .ok (i, tail) => .operation i (s.withPort (requeue tail rest))

/-- The host issues a transaction while no operation is running. -/
def State.issue (s : State) (bytes : List Byte) : State :=
  s.withPort (s.port ++ [{ bytes := bytes, overlapping := false }])

/-- The state in which the next transaction to be taken is the given one. -/
def placeFirst (s : State) (bytes : List Byte) : State :=
  s.withPort ({ bytes := bytes, overlapping := false } :: s.port)

end Sys2Proof.Machine
end

