-- ==== Sys2Proof/Machine/Step.lean ====
section
/-! DEFINITION. One step of the machine: one host transaction, taken, run and settled as a whole (00_scope.md R18,
20_memory.md R47). -/

namespace Sys2Proof.Machine

/-- One step. With nothing issued the engine holds its state: "It moves only when the host issues an operation"
(43_instance.md R136, 60_exceptions.md R155). A fault or a refusal of the operation leaves the instance unchanged and is
recorded, and the run goes on (60_exceptions.md R142; log 6). -/
def step (s : State) : Host.Outcome State Fault Refusal :=
  match takeTransaction s with
  | .nothing => .next s
  | .refused t r => .next (t.note (.refusal r))
  | .operation i t => settle i t (exec i t)

/-- `s` with the opcode-table word as the next transaction on the host port, so that `step` takes exactly it (log 3). -/
def State.withFetchWord (s : State) (nbits w : Nat) : State := placeFirst s (tableBytes nbits w)

end Sys2Proof.Machine
end

