-- ==== Sys2Proof/Machine/Assembler.lean ====
section
/-! DEFINITION. The spec's textual syntax for host operations (30_encoding.md R71) and its pseudo-instructions (R72). One
operation a line; `;` starts a comment; numbers are decimal or `0x` hexadecimal; a byte list is written in square
brackets. The symbols START, ACK and NAK are bound at assembly time by the configuration. -/

namespace Sys2Proof.Machine

/-! ### Pseudo-instructions (R72) -/

/-- `POLL`. -/
def poll : List Instr := [.dispatch none]

/-- `FEED [b0, ..., bk]`: one DISPATCH for each byte. -/
def feed (bs : List Byte) : List Instr := bs.map (fun b => .dispatch (some b))

/-- `FEED_FRAME cmd, data, cap`. -/
def feedFrame (k : Config) (cmd : Byte) (data : List Byte) (cap : Nat) : List Instr := feed (frameBytes k cmd data cap)

/-- `FEED_ACK`. -/
def feedAck (k : Config) : List Instr := [.dispatch (some k.ackByte)]

/-- `FEED_NAK`. -/
def feedNak (k : Config) : List Instr := [.dispatch (some k.nakByte)]

/-! ### Words and numbers -/

/-- A lexical element of a line. -/
inductive Token where
  | num (n : Nat)
  | word (w : List Char)
  | comma
  | openList
  | closeList
  | openSet
  | closeSet
  deriving DecidableEq, Repr

/-- The value of a digit character in a base up to 16. -/
def digitValue (base : Nat) (c : Char) : Option Nat :=
  let n := c.toNat
  let v :=
    if 48 ≤ n ∧ n ≤ 57 then n - 48
    else if 97 ≤ n ∧ n ≤ 102 then n - 87
    else if 65 ≤ n ∧ n ≤ 70 then n - 55
    else base
  if v < base then some v else none

/-- The value of a digit string, most significant digit first, after `acc`. -/
def digitsValue (base : Nat) : Nat → List Char → Option Nat
  | acc, [] => some acc
  | acc, c :: cs =>
    match digitValue base c with
    | some v => digitsValue base (acc * base + v) cs
    | none => none

/-- A token of word characters: a number if it begins with a digit, else a word. -/
def wordToken (w : List Char) : Option Token :=
  match w with
  | [] => none
  | '0' :: 'x' :: c :: cs => (digitsValue 16 0 (c :: cs)).map .num
  | c :: cs => if (digitValue 10 c).isSome then (digitsValue 10 0 (c :: cs)).map .num else some (.word w)

/-- A letter, a digit or an underscore. -/
def isWordChar (c : Char) : Bool :=
  let n := c.toNat
  (48 ≤ n && n ≤ 57) || (65 ≤ n && n ≤ 90) || (97 ≤ n && n ≤ 122) || n == 95

/-- The token of a punctuation character; 123 and 125 are the curly brackets of a slot set. -/
def punctuation (c : Char) : Option Token :=
  if c.toNat = 44 then some .comma
  else if c.toNat = 91 then some .openList
  else if c.toNat = 93 then some .closeList
  else if c.toNat = 123 then some .openSet
  else if c.toNat = 125 then some .closeSet
  else none

/-- Put the pending word, if there is one, in front of the tokens after it. -/
def flush (pending : List Char) (ts : List Token) : Option (List Token) :=
  if pending = [] then some ts else (wordToken pending).map (· :: ts)

/-- The tokens of a line; `pending` is the word being read. -/
def tokens (pending : List Char) : List Char → Option (List Token)
  | [] => flush pending []
  | c :: cs =>
    if c.toNat = 59 then flush pending []
    else if isWordChar c then tokens (pending ++ [c]) cs
    else
      match tokens [] cs with
      | none => none
      | some ts =>
        if c.toNat = 32 ∨ c.toNat = 9 ∨ c.toNat = 13 then flush pending ts
        else
          match punctuation c with
          | some p => flush pending (p :: ts)
          | none => none

/-! ### Operands -/

/-- A byte operand: a number below 256 or one of the three symbols. -/
def byteOperand (k : Config) : Token → Option Byte
  | .num n => if n < 256 then some (BitVec.ofNat 8 n) else none
  | .word w =>
    if w = "START".toList then some k.startByte
    else if w = "ACK".toList then some k.ackByte
    else if w = "NAK".toList then some k.nakByte
    else none
  | _ => none

/-- The rest of a byte list, after an element. -/
def listRest (k : Config) : List Token → Option (List Byte × List Token)
  | .closeList :: ts => some ([], ts)
  | .comma :: t :: ts =>
    match byteOperand k t, listRest k ts with
    | some b, some (bs, rest) => some (b :: bs, rest)
    | _, _ => none
  | _ => none

/-- A byte list, at most as long as a transaction can carry (R71), and what follows it. -/
def byteList (k : Config) (ts : List Token) : Option (List Byte × List Token) :=
  let r :=
    match ts with
    | .openList :: .closeList :: ts => some ([], ts)
    | .openList :: t :: ts =>
      match byteOperand k t, listRest k ts with
      | some b, some (bs, rest) => some (b :: bs, rest)
      | _, _ => none
    | _ => none
  match r with
  | some (bs, rest) => if bs.length ≤ maxDataLength then some (bs, rest) else none
  | none => none

/-- One slot by its name. -/
def slotOperand : Token → Option CallbackSlots
  | .word w =>
    if w = "out".toList then some { CallbackSlots.none with out := true }
    else if w = "in".toList then some { CallbackSlots.none with inp := true }
    else if w = "msg".toList then some { CallbackSlots.none with msg := true }
    else if w = "ack".toList then some { CallbackSlots.none with ack := true }
    else none
  | _ => none

/-- The rest of a slot set, after an element: nothing follows it on the line. -/
def slotRest : List Token → Option CallbackSlots
  | [.closeSet] => some CallbackSlots.none
  | .comma :: t :: ts =>
    match slotOperand t, slotRest ts with
    | some a, some b => some (a.union b)
    | _, _ => none
  | _ => none

/-- A slot set. -/
def slotSet : List Token → Option CallbackSlots
  | [.openSet, .closeSet] => some CallbackSlots.none
  | .openSet :: t :: ts =>
    match slotOperand t, slotRest ts with
    | some a, some b => some (a.union b)
    | _, _ => none
  | _ => none

/-- A byte list with nothing after it. -/
def lastByteList (k : Config) (ts : List Token) : Option (List Byte) :=
  match byteList k ts with
  | some (bs, []) => some bs
  | _ => none

/-! ### Lines -/

/-- The operand of DISPATCH. -/
def dispatchOperand (k : Config) (t : Token) : Option (List Instr) :=
  if t = .word "none".toList then some [.dispatch none] else (byteOperand k t).map (fun b => [.dispatch (some b)])

/-- A command byte, a comma, and the tokens after them. -/
def commandOperand (k : Config) : List Token → Option (Byte × List Token)
  | t :: .comma :: ts => (byteOperand k t).map (fun b => (b, ts))
  | _ => none

/-- The operands of SEND. -/
def sendOperands (k : Config) (ts : List Token) : Option (List Instr) :=
  match commandOperand k ts with
  | some (cmd, ts) => (lastByteList k ts).map (fun data => [.send cmd data])
  | none => none

/-- The operands of FEED_FRAME; its capacity is one a frame can be made for (41_encoder.md R91). -/
def feedFrameOperands (k : Config) (ts : List Token) : Option (List Instr) :=
  match commandOperand k ts with
  | some (cmd, ts) =>
    match byteList k ts with
    | some (data, [.comma, .num cap]) => if 1 ≤ cap ∧ cap ≤ maxCapacity then some (feedFrame k cmd data cap) else none
    | _ => none
  | none => none

/-- The operations of a mnemonic or pseudo-instruction with the operand tokens after it. -/
def assembleWord (k : Config) (w : List Char) (args : List Token) : Option (List Instr) :=
  if w = "INIT".toList then (match args with | [.num c] => some [.init c] | _ => none)
  else if w = "DISPATCH".toList then (match args with | [t] => dispatchOperand k t | _ => none)
  else if w = "SEND".toList then sendOperands k args
  else if w = "SEND_ACK".toList then (if args = [] then some [.sendAck] else none)
  else if w = "SEND_NAK".toList then (if args = [] then some [.sendNak] else none)
  else if w = "CHECKSUM".toList then (lastByteList k args).map (fun data => [.checksum data])
  else if w = "ABORT".toList then (if args = [] then some [.abort] else none)
  else if w = "SET_CALLBACKS".toList then (slotSet args).map (fun m => [.setCallbacks m])
  else if w = "POLL".toList then (if args = [] then some poll else none)
  else if w = "FEED".toList then (lastByteList k args).map feed
  else if w = "FEED_FRAME".toList then feedFrameOperands k args
  else if w = "FEED_ACK".toList then (if args = [] then some (feedAck k) else none)
  else if w = "FEED_NAK".toList then (if args = [] then some (feedNak k) else none)
  else none

/-- The operations a line stands for: none for a blank or comment line. -/
def assembleLine (k : Config) (line : List Char) : Option (List Instr) :=
  match tokens [] line with
  | some [] => some []
  | some (.word w :: args) => assembleWord k w args
  | _ => none

/-- The operations of a program, given its lines. -/
def assemble (k : Config) : List (List Char) → Option (List Instr)
  | [] => some []
  | l :: ls =>
    match assembleLine k l, assemble k ls with
    | some a, some b => some (a ++ b)
    | _, _ => none

end Sys2Proof.Machine
end

