-- ==== Sys2Proof/Machine/Run.lean ====
section
/-! DEFINITION. Several operations in order (20_memory.md R47), and several instances (10_state.md R36, 20_memory.md R53,
60_exceptions.md R153). -/

namespace Sys2Proof.Machine

/-- Run operations one after another, each on the state the previous one left (R47), while every outcome is normal. -/
def execAll : List Instr → State → Result
  | [], s => .next s
  | i :: is, s =>
    match exec i s with
    | .next t => execAll is t
    | .fault f => .fault f
    | .refused r => .refused r

/-- Any number of instances, each a whole machine of its own; the host tells them apart by their place (R153). -/
structure System where
  instances : List State
  deriving DecidableEq, Repr

/-- One step of instance `n`; the others are not touched (R36). -/
def System.stepInstance (y : System) (n : Nat) : Host.Outcome System Fault Refusal :=
  match y.instances[n]? with
  | none => .next y
  | some s =>
    match step s with
    | .next t => .next { instances := y.instances.set n t }
    | .fault f => .fault f
    | .refused r => .refused r

end Sys2Proof.Machine
end

