-- ==== Sys2Proof/Safety.lean ====
section
/-! DEFINITION. What claims are stated in terms of: the invariant of 10_state.md R35, a run with nothing recorded
(60_exceptions.md R142), and what a host sees of a run (20_memory.md R48). -/

namespace Sys2Proof.Machine

/-- The invariants R35 lists, word for word. -/
abbrev Engine.listedInvariant (e : Engine) : Prop :=
  (e.st = .readData → 1 ≤ e.msgLen.toNat ∧ e.msgLen.toNat ≤ e.cap.toNat ∧ e.rxCount.toNat < e.msgLen.toNat) ∧
  (e.st = .readChecksum →
    e.msgLen.toNat ≤ e.cap.toNat ∧ e.rxCount = e.msgLen ∧ (e.crcCount = 0 ∨ e.crcCount = 1)) ∧
  (e.st = .readCommand ∨ e.st = .readLength → e.rxCount = 0 ∧ e.crcCount = 0) ∧
  (e.live = true → 1 ≤ e.cap.toNat ∧ e.cap.toNat ≤ 255)

/-- What every step keeps: R35's list, with the two facts it rests on. No checksum byte has been counted while payload
bytes are read (R101, R107), and the payload buffer is in canonical form with every listed index below `cap` (R29). -/
abbrev Engine.invariant (e : Engine) : Prop :=
  e.listedInvariant ∧ (e.st = .readData → e.crcCount = 0) ∧ e.payload.wf ∧ e.payload.within e.cap.toNat

/-- No fault and no refusal recorded: the premise R142 asks of a claim about a run. -/
def State.clean (s : State) : Prop := s.record = []

/-- The instance's transmitted byte stream: the `OutByte` events of all its operations, in order (R48). -/
def transmitted : List OutEvent → List Byte
  | [] => []
  | .outByte b :: es => b :: transmitted es
  | .messageDecoded _ _ _ :: es => transmitted es
  | .ackReceived _ :: es => transmitted es
  | .checksumResult _ :: es => transmitted es

end Sys2Proof.Machine
end

