-- ==== Sys2Proof/Certificates/Slice0/Obligations.lean ====
section
/-! DEFINITION. The statements about the protocol engine. Each docstring names the rule of spec/ it formalises. Where a
statement speaks of the host side of the ports (`port`, `bindings`, `delivered`, `record`) it speaks of the model's own
fields, which log 3, 6, 9 and 10 declare; no statement rests on a marker value or on a register's value before INIT. A live
instance with `cap = 0`, which no run reaches (R35), is not left out: what SEND and `frameBytes` give there is the
model's choice, log 18. -/

namespace Sys2Proof.Machine

/-- `exec i s` answers a next state: the registers are `e`, the events `es` are emitted in order, and the configuration,
the bindings, the port and the record are as before. (Which of the events reach a bound callback is
`Obligations.DeliveryFollowsTheBindings`.) -/
def completesWith (i : Instr) (s : State) (e : Engine) (es : List OutEvent) : Prop :=
  ∃ t, exec i s = .next t ∧ t.eng = e ∧ t.events = s.events ++ es ∧ t.cfg = s.cfg ∧ t.bindings = s.bindings ∧
    t.port = s.port ∧ t.record = s.record

/-- Feeding the bytes from `s`, one DISPATCH each, answers a next state whose parser state is `st`, with the new events
`es`, and with the configuration, the bindings, the port and the record as before. -/
def feedingGives (bs : List Byte) (s : State) (st : ParserState) (es : List OutEvent) : Prop :=
  ∃ t, execAll (feed bs) s = .next t ∧ t.eng.st = st ∧ t.events = s.events ++ es ∧ t.cfg = s.cfg ∧
    t.bindings = s.bindings ∧ t.port = s.port ∧ t.record = s.record

/-- A live instance in `Idle` under this hardware's value of P_MIDFRAME_RESYNC. -/
def receiving (s : State) : Prop := s.eng.live = true ∧ s.eng.st = .idle ∧ s.cfg.midframeResync = false

/-- The illegal byte strings of R69: a reserved OP, RSV not 0, V = 1 outside DISPATCH, a reserved mask bit, or shorter
than R67's length for the first byte (and the count). -/
def illegalTransaction : List Byte → Prop
  | [] => True
  | h :: bs =>
    8 ≤ (h.extractLsb' 0 4).toNat ∨ h.extractLsb' 5 3 ≠ 0 ∨ (h.getLsbD 4 = true ∧ h.extractLsb' 0 4 ≠ 1) ∨
    (h = 0x07 ∧ ∃ m tail, bs = m :: tail ∧ m.extractLsb' 4 4 ≠ 0) ∨
    ((h = 0x00 ∨ h = 0x11 ∨ h = 0x07) ∧ bs = []) ∨
    (h = 0x02 ∧ (bs.length < 3 ∨
      ∃ cmd lo hi tail, bs = cmd :: lo :: hi :: tail ∧ tail.length < lo.toNat + 256 * hi.toNat)) ∨
    (h = 0x05 ∧ (bs.length < 2 ∨ ∃ lo hi tail, bs = lo :: hi :: tail ∧ tail.length < lo.toNat + 256 * hi.toNat))

end Sys2Proof.Machine

open Sys2Proof Sys2Proof.Machine

/-! ### Encoding -/

/-- R67, R68, R70: decoding the transaction of a well-formed operation gives it back, whatever bytes follow. -/
def Obligations.DecodeOfEncodeGivesTheOperation : Prop :=
  ∀ (i : Instr) (rest : List Byte), i.wellFormed = true → decode (encode i ++ rest) = .ok (i, rest)

/-- R67, R70: what decodes is the transaction of the well-formed operation it decodes to, followed by the rest. -/
def Obligations.EncodeOfDecodeGivesTheBytes : Prop :=
  ∀ (bs rest : List Byte) (i : Instr), decode bs = .ok (i, rest) → i.wellFormed = true ∧ bs = encode i ++ rest

/-- R69: exactly the illegal byte strings do not decode, and the step that takes one records RESERVED_ENCODING, writes no
register and emits no event. That the refused byte string leaves the port whole is the model's choice (log 5), and that the
step goes on is log 6. -/
def Obligations.ReservedTransactionsAreRefused : Prop :=
  ∀ bs : List Byte,
    (illegalTransaction bs ↔ ∃ e, decode bs = .error e) ∧
    ∀ (s : State) (rest : List Transaction), illegalTransaction bs →
      s.port = { bytes := bs, overlapping := false } :: rest → validConfig s.cfg →
      step s = .next { s with port := rest, record := s.record ++ [.refusal .reservedEncoding] }

/-- R67: words written out from the table of transactions. -/
def Obligations.HostWordsDecode : Prop :=
  decode [0x00, 0x0C] = .ok (.init 12, []) ∧
  decode [0x01] = .ok (.dispatch none, []) ∧
  decode [0x11, 0xC0] = .ok (.dispatch (some 0xC0), []) ∧
  decode [0x02, 0x01, 0x03, 0x00, 0xAA, 0xBB, 0xCC] = .ok (.send 0x01 [0xAA, 0xBB, 0xCC], []) ∧
  decode [0x03] = .ok (.sendAck, []) ∧
  decode [0x04] = .ok (.sendNak, []) ∧
  decode [0x05, 0x01, 0x00, 0x31] = .ok (.checksum [0x31], []) ∧
  decode [0x06] = .ok (.abort, []) ∧
  decode [0x07, 0x09] = .ok (.setCallbacks { out := true, inp := false, msg := false, ack := true }, [])

/-- R42: the two received checksum bytes are put together low byte first, and a 16-bit value is taken apart so. -/
def Obligations.ChecksumBytesAreLowByteFirst : Prop :=
  ∀ (v : Half) (lo hi : Byte),
    withHighByte (withLowByte v lo) hi = (lo.setWidth 16 ||| (hi.setWidth 16 <<< 8)) ∧
    lowByte (withHighByte (withLowByte v lo) hi) = lo ∧ highByte (withHighByte (withLowByte v lo) hi) = hi

/-! ### The step -/

/-- R67, R142: when the next transaction decodes to an operation, the step is that operation's outcome on the state
without the transaction; CAPACITY_INVALID and a refusal leave that state as it is but for the record. The bytes after the
transaction are the next one (the model's choice, log 4); that the run goes on is log 6. That an access outside the payload
buffer stops the step with a fault of the model's own is the model's choice too (log 12): R144 has the one fault
CAPACITY_INVALID. -/
def Obligations.StepRunsTheDecodedOperation : Prop :=
  ∀ (s s₁ : State) (bs tail : List Byte) (rest : List Transaction) (i : Instr),
    s.port = { bytes := bs, overlapping := false } :: rest → validConfig s.cfg → decode bs = .ok (i, tail) →
    s₁ = { s with port := if tail = [] then rest else { bytes := tail, overlapping := false } :: rest } →
    (∀ t, exec i s₁ = .next t → step s = .next t) ∧
    (exec i s₁ = .fault .capacityInvalid →
      step s = .next { s₁ with record := s₁.record ++ [.fault .capacityInvalid i] }) ∧
    (exec i s₁ = .fault .payloadIndexOutOfRange → step s = .fault .payloadIndexOutOfRange) ∧
    (∀ r, exec i s₁ = .refused r → step s = .next { s₁ with record := s₁.record ++ [.refusal r] })

/-- R136, R155: with no operation issued the engine holds its state. -/
def Obligations.NothingIssuedHoldsTheState : Prop := ∀ s : State, s.port = [] → step s = .next s

/-- R12, R145: a configuration whose markers are not pairwise distinct is refused CONFIG_INVALID, whatever is issued. That
the refused byte string leaves the port whole is the model's choice (log 5), and that the step goes on is log 6. -/
def Obligations.EqualMarkersAreRefused : Prop :=
  ∀ (s : State) (x : Transaction) (rest : List Transaction), s.port = x :: rest →
    (s.cfg.startByte = s.cfg.ackByte ∨ s.cfg.startByte = s.cfg.nakByte ∨ s.cfg.ackByte = s.cfg.nakByte) →
    step s = .next { s with port := rest, record := s.record ++ [.refusal .configInvalid] }

/-- R145, R166: a transaction issued while another operation of the instance is running is refused HOST_REENTRANT, and
changes nothing else. (The mark on the transaction and where the check stands are the model's choice, log 7; so is that the
refused byte string leaves the port whole, log 5; that the step goes on is log 6.) -/
def Obligations.OverlappingOperationIsRefused : Prop :=
  ∀ (s : State) (bs : List Byte) (rest : List Transaction),
    s.port = { bytes := bs, overlapping := true } :: rest → validConfig s.cfg →
    step s = .next { s with port := rest, record := s.record ++ [.refusal .hostReentrant] }

/-- R143: the configuration check (R145, R162) comes first, then encoding, then `live` (skipped for INIT), then INIT's
operand; exactly one reason is recorded. The bytes after a decoded transaction being the next one is log 4, a refused byte
string leaving the port whole is log 5 (the model's choice), and that the step goes on is log 6. -/
def Obligations.ChecksAreMadeInOrder : Prop :=
  ∀ (s s₁ : State) (bs tail : List Byte) (rest : List Transaction) (i : Instr) (c : Nat) (e : DecodeError),
    s.port = { bytes := bs, overlapping := false } :: rest →
    s₁ = { s with port := if tail = [] then rest else { bytes := tail, overlapping := false } :: rest } →
    (¬ validConfig s.cfg →
      step s = .next { s with port := rest, record := s.record ++ [.refusal .configInvalid] }) ∧
    (validConfig s.cfg → decode bs = .error e →
      step s = .next { s with port := rest, record := s.record ++ [.refusal .reservedEncoding] }) ∧
    (validConfig s.cfg → decode bs = .ok (i, tail) → (∀ n, i ≠ .init n) → s.eng.live = false →
      step s = .next { s₁ with record := s.record ++ [.refusal .notInitialized] }) ∧
    (validConfig s.cfg → decode bs = .ok (.init c, tail) → c = 0 ∨ 255 < c →
      step s = .next { s₁ with record := s.record ++ [.fault .capacityInvalid (.init c)] })

/-- R134: before the first INIT every other operation is refused NOT_INITIALIZED, and nothing but the record changes. -/
def Obligations.BeforeInitEveryOtherOperationIsRefused : Prop :=
  ∀ (i : Instr) (s : State), s.eng.live = false → (∀ c, i ≠ .init c) →
    exec i s = .refused .notInitialized ∧
    settle i s (exec i s) = .next { s with record := s.record ++ [.refusal .notInitialized] }

/-- R144: on every state that meets the invariant, the one fault is CAPACITY_INVALID, raised by INIT with `c = 0` or
`c > 255` and by nothing else; it records its reason and the operation and writes no register. -/
def Obligations.CapacityInvalidIsTheOnlyFault : Prop :=
  ∀ (i : Instr) (s : State), s.eng.invariant →
    (∀ f, exec i s = .fault f → f = .capacityInvalid) ∧
    (exec i s = .fault .capacityInvalid ↔ ∃ c, i = .init c ∧ (c = 0 ∨ 255 < c)) ∧
    (exec i s = .fault .capacityInvalid →
      settle i s (exec i s) = .next { s with record := s.record ++ [.fault .capacityInvalid i] })

/-- Log 12, R16: in a state where a receive transition would touch an index outside the buffer (no run reaches one), the
DISPATCH stops with the model's own fault: writing payload byte `rx_count` at or above `cap`, or reading back a message
longer than `cap`. -/
def Obligations.PayloadAccessOutsideTheBufferFaults : Prop :=
  ∀ (s : State) (b : Byte), s.eng.live = true → s.cfg.midframeResync = false →
    (s.eng.st = .readData → s.eng.cap.toNat ≤ s.eng.rxCount.toNat →
      exec (.dispatch (some b)) s = .fault .payloadIndexOutOfRange) ∧
    (s.eng.st = .readChecksum → s.eng.crcCount ≠ 0 → s.eng.cap.toNat < s.eng.msgLen.toNat →
      exec (.dispatch (some b)) s = .fault .payloadIndexOutOfRange)

/-! ### The Protocol Instance -/

/-- R38: after INIT with a legal capacity every register has its defined value and every callback its default, from
whatever state. -/
def Obligations.InitSetsEveryRegister : Prop :=
  ∀ (c : Nat) (s : State), 1 ≤ c → c ≤ 255 →
    ∃ t, exec (.init c) s = .next t ∧
      t.eng = { live := true, st := .idle, cap := BitVec.ofNat 8 c, msgCmd := 0, msgLen := 0, payload := [],
                rxCount := 0, crcCount := 0, rxCrc := 0 } ∧
      t.eng.cap.toNat = c ∧ (∀ j, j < c → t.eng.memRead j = .ok 0) ∧
      t.bindings = { out := false, inp := false, msg := false, ack := false } ∧
      t.events = s.events ∧ t.delivered = s.delivered ∧ t.cfg = s.cfg ∧ t.port = s.port ∧ t.record = s.record

/-- R133: ABORT writes `st` only, emits nothing, is a no-operation in `Idle`, and is refused before INIT. -/
def Obligations.AbortReturnsToIdle : Prop :=
  ∀ s : State,
    (s.eng.live = true → completesWith .abort s { s.eng with st := .idle } []) ∧
    (s.eng.live = true → s.eng.st = .idle → exec .abort s = .next s) ∧
    (s.eng.live = false → exec .abort s = .refused .notInitialized)

/-- R131: SET_CALLBACKS writes no register and emits nothing; on the host side each selected slot is replaced and the
others are kept; `m = 0` is a no-operation; a mask with a bit of 7:4 set does not decode. (That a binding is one bit,
"replaced since INIT", is the model's choice, log 10.) -/
def Obligations.SetCallbacksReplacesTheSelectedSlots : Prop :=
  ∀ (m : CallbackSlots) (s : State),
    (s.eng.live = true → ∃ t, exec (.setCallbacks m) s = .next t ∧ t.eng = s.eng ∧ t.events = s.events ∧
      t.bindings = { out := if m.out then true else s.bindings.out, inp := if m.inp then true else s.bindings.inp,
                     msg := if m.msg then true else s.bindings.msg, ack := if m.ack then true else s.bindings.ack } ∧
      t.cfg = s.cfg ∧ t.port = s.port ∧ t.delivered = s.delivered ∧ t.record = s.record) ∧
    (s.eng.live = true →
      exec (.setCallbacks { out := false, inp := false, msg := false, ack := false }) s = .next s) ∧
    (s.eng.live = false → exec (.setCallbacks m) s = .refused .notInitialized) ∧
    (∀ (b : Byte) (rest : List Byte), b.extractLsb' 4 4 ≠ 0 → decode (0x07 :: b :: rest) = .error .reservedMask)

/-! ### The encoder -/

/-- R90: SEND emits one frame, its data cut to `cap` bytes, and writes no register, in every parser state. -/
def Obligations.SendEmitsOneFrame : Prop :=
  ∀ (cmd : Byte) (data d : List Byte) (s : State), d = data.take s.eng.cap.toNat →
    (s.eng.live = true → completesWith (.send cmd data) s s.eng
      (([s.cfg.startByte, cmd, BitVec.ofNat 8 (min data.length s.eng.cap.toNat)] ++ d ++
        [(crc16 d).extractLsb' 0 8, (crc16 d).extractLsb' 8 8]).map .outByte)) ∧
    (s.eng.live = false → exec (.send cmd data) s = .refused .notInitialized)

/-- R91: the layout of `frameBytes`, byte by byte: `5 + t` bytes, LEN is `t` and fits one byte, the data unescaped, the
checksum low byte first. -/
def Obligations.FrameBytesLayout : Prop :=
  ∀ (k : Config) (cmd : Byte) (data : List Byte) (maxLen t : Nat), 1 ≤ maxLen → maxLen ≤ 255 → t = min data.length maxLen →
    (frameBytes k cmd data maxLen).length = 5 + t ∧
    (frameBytes k cmd data maxLen)[0]? = some k.startByte ∧
    (frameBytes k cmd data maxLen)[1]? = some cmd ∧
    (∃ len : Byte, (frameBytes k cmd data maxLen)[2]? = some len ∧ len.toNat = t) ∧
    (∀ j, j < t → (frameBytes k cmd data maxLen)[3 + j]? = data[j]?) ∧
    (frameBytes k cmd data maxLen)[3 + t]? = some ((crc16 (data.take t)).extractLsb' 0 8) ∧
    (frameBytes k cmd data maxLen)[4 + t]? = some ((crc16 (data.take t)).extractLsb' 8 8)

/-- R95: truncation is silent: sending data longer than `cap` is, in every outcome and effect, sending its first `cap`
bytes, and then LEN equals `cap`. -/
def Obligations.TruncationIsSilent : Prop :=
  ∀ (cmd : Byte) (data : List Byte) (s : State),
    exec (.send cmd data) s = exec (.send cmd (data.take s.eng.cap.toNat)) s ∧
    (s.eng.cap.toNat < data.length →
      (frameBytes s.cfg cmd data s.eng.cap.toNat)[2]? = some s.eng.cap)

/-- R92, R93: SEND_ACK and SEND_NAK emit their one marker byte and write no register, in every parser state. -/
def Obligations.SendAckAndSendNakEmitTheirMarker : Prop :=
  ∀ s : State,
    (s.eng.live = true → completesWith .sendAck s s.eng [.outByte s.cfg.ackByte] ∧
      completesWith .sendNak s s.eng [.outByte s.cfg.nakByte]) ∧
    (s.eng.live = false → exec .sendAck s = .refused .notInitialized ∧ exec .sendNak s = .refused .notInitialized)

/-- R48, R96: SEND puts its whole frame, and nothing else, at the end of the instance's transmitted byte stream. -/
def Obligations.SendExtendsTheTransmittedStream : Prop :=
  ∀ (cmd : Byte) (data : List Byte) (s t : State), exec (.send cmd data) s = .next t →
    transmitted t.events = transmitted s.events ++ frameBytes s.cfg cmd data s.eng.cap.toNat

/-! ### The Checksum Engine -/

/-- R83: CHECKSUM emits the checksum of its operand and writes no register, in every parser state; for no data the result
is 0xFFFF. -/
def Obligations.ChecksumReportsTheCrc : Prop :=
  ∀ (data : List Byte) (s : State),
    (s.eng.live = true → completesWith (.checksum data) s s.eng [.checksumResult (crc16 data)]) ∧
    (s.eng.live = true → completesWith (.checksum []) s s.eng [.checksumResult 0xFFFF]) ∧
    (s.eng.live = false → exec (.checksum data) s = .refused .notInitialized)

/-- R82: the laws of `crc16`: the empty input, the conformance vector, composition, and the bound on one operation's
data. -/
def Obligations.CrcLaws : Prop :=
  crc16 [] = 0xFFFF ∧
  crc16 [0x31, 0x32, 0x33, 0x34, 0x35, 0x36, 0x37, 0x38, 0x39] = 0x29B1 ∧
  (∀ a b : List Byte, crc16 (a ++ b) = b.foldl crcStep (crc16 a)) ∧
  (∀ (bs data rest : List Byte), decode bs = .ok (.checksum data, rest) → data.length ≤ 65535)

/-- R81: every entry of the printed table is the bit-serial step of its index from 0, and the table form of the update is
the bit-serial form for every register value and byte. -/
def Obligations.TableFormIsTheBitSerialForm : Prop :=
  crcTable.length = 256 ∧ (∀ i : Byte, crcTableEntry i = crcStep 0 i) ∧
  ∀ (c : Half) (b : Byte), crcStepByTable c b = crcStep c b

/-! ### The parser, one transition each -/

/-- R111: with no byte available nothing changes and nothing is emitted, in every parser state. -/
def Obligations.NoByteChangesNothing : Prop :=
  ∀ s : State, (s.eng.live = true → exec (.dispatch none) s = .next s) ∧
    (s.eng.live = false → exec (.dispatch none) s = .refused .notInitialized)

/-- R101: a start marker in `Idle` begins a frame: every message field, counter and payload byte becomes 0. -/
def Obligations.StartMarkerBeginsAFrame : Prop :=
  ∀ s : State, s.eng.live = true → s.eng.st = .idle →
    ∃ e : Engine, completesWith (.dispatch (some s.cfg.startByte)) s e [] ∧
      e = { s.eng with msgCmd := 0, msgLen := 0, payload := [], rxCount := 0, crcCount := 0, rxCrc := 0,
                       st := .readCommand } ∧
      ∀ j, j < s.eng.cap.toNat → e.memRead j = .ok 0

/-- R102: any other byte in `Idle` writes no register; an acknowledgment marker is reported, anything else discarded. -/
def Obligations.OtherBytesInIdle : Prop :=
  ∀ (s : State) (b : Byte), s.eng.live = true → s.eng.st = .idle → b ≠ s.cfg.startByte →
    (b = s.cfg.ackByte → completesWith (.dispatch (some b)) s s.eng [.ackReceived .positive]) ∧
    (b ≠ s.cfg.ackByte → b = s.cfg.nakByte →
      completesWith (.dispatch (some b)) s s.eng [.ackReceived .negative]) ∧
    (b ≠ s.cfg.ackByte → b ≠ s.cfg.nakByte → completesWith (.dispatch (some b)) s s.eng [])

/-- R103: in `ReadCommand` every byte is stored as the command. -/
def Obligations.CommandByteIsStored : Prop :=
  ∀ (s : State) (b : Byte), s.eng.live = true → s.cfg.midframeResync = false → s.eng.st = .readCommand →
    completesWith (.dispatch (some b)) s { s.eng with msgCmd := b, st := .readLength } []

/-- R104: in `ReadLength` every byte is stored as the length; above the capacity the frame is abandoned with a NAK and no
payload byte is written; 0 goes straight to `ReadChecksum`; else `ReadData`. -/
def Obligations.LengthByteIsBoundedByTheCapacity : Prop :=
  ∀ (s : State) (b : Byte), s.eng.live = true → s.cfg.midframeResync = false → s.eng.st = .readLength →
    (s.eng.cap.toNat < b.toNat →
      completesWith (.dispatch (some b)) s { s.eng with msgLen := b, st := .idle } [.outByte s.cfg.nakByte]) ∧
    (b = 0 → completesWith (.dispatch (some b)) s { s.eng with msgLen := b, st := .readChecksum } []) ∧
    (b ≠ 0 → b.toNat ≤ s.eng.cap.toNat →
      completesWith (.dispatch (some b)) s { s.eng with msgLen := b, st := .readData } [])

/-- R106: in `ReadData` every byte is stored at index `rx_count`, every other index reads as before, `rx_count` goes up by
one, and the parser goes on to `ReadChecksum` when it reaches `msg_len`. -/
def Obligations.DataByteIsStored : Prop :=
  ∀ (s : State) (b : Byte), s.eng.live = true → s.cfg.midframeResync = false → s.eng.st = .readData →
    s.eng.payload.wf → s.eng.rxCount.toNat < s.eng.msgLen.toNat → s.eng.msgLen.toNat ≤ s.eng.cap.toNat →
    ∃ e : Engine, completesWith (.dispatch (some b)) s e [] ∧
      e = { s.eng with payload := e.payload, rxCount := e.rxCount,
                       st := if e.rxCount = s.eng.msgLen then .readChecksum else .readData } ∧
      e.rxCount.toNat = s.eng.rxCount.toNat + 1 ∧
      e.memRead s.eng.rxCount.toNat = .ok b ∧
      ∀ j, j ≠ s.eng.rxCount.toNat → e.memRead j = s.eng.memRead j

/-- R107: the first checksum byte goes to `rx_crc[7:0]`. -/
def Obligations.FirstChecksumByteIsTheLowByte : Prop :=
  ∀ (s : State) (b : Byte), s.eng.live = true → s.cfg.midframeResync = false → s.eng.st = .readChecksum →
    s.eng.crcCount = 0 →
    completesWith (.dispatch (some b)) s
      { s.eng with rxCrc := (s.eng.rxCrc &&& 0xFF00) ||| b.setWidth 16, crcCount := 1 } []

/-- R108: the second checksum byte goes to `rx_crc[15:8]` and the frame is verified over the first `msg_len` payload bytes:
on a match the message is delivered, then ACK; on a mismatch NAK alone. Either way the parser is in `Idle`. -/
def Obligations.SecondChecksumByteVerifiesTheFrame : Prop :=
  ∀ (s : State) (b : Byte) (data : List Byte) (v : Half), s.eng.live = true → s.cfg.midframeResync = false →
    s.eng.st = .readChecksum → s.eng.crcCount ≠ 0 → s.eng.msgLen.toNat ≤ s.eng.cap.toNat →
    data.length = s.eng.msgLen.toNat → (∀ j x, data[j]? = some x → s.eng.memRead j = .ok x) →
    v = (s.eng.rxCrc &&& 0x00FF) ||| (b.setWidth 16 <<< 8) →
    (v = crc16 data → completesWith (.dispatch (some b)) s { s.eng with rxCrc := v, crcCount := 2, st := .idle }
      [.messageDecoded s.eng.msgCmd s.eng.msgLen data, .outByte s.cfg.ackByte]) ∧
    (v ≠ crc16 data → completesWith (.dispatch (some b)) s { s.eng with rxCrc := v, crcCount := 2, st := .idle }
      [.outByte s.cfg.nakByte])

/-- R109, for P_MIDFRAME_RESYNC = true (not this hardware: a step refuses such a configuration, R162; this is about the
operation): a start marker outside `Idle` abandons the partial frame with no event and begins a new one; every other byte
has, in every outcome, the effect it has under `false`. -/
def Obligations.MidframeRestartParameter : Prop :=
  ∀ (s f : State), s.eng.live = true → s.eng.st ≠ .idle → s.cfg.midframeResync = true →
    f = { s with cfg := { s.cfg with midframeResync := false } } →
    completesWith (.dispatch (some s.cfg.startByte)) s
      { s.eng with msgCmd := 0, msgLen := 0, payload := [], rxCount := 0, crcCount := 0, rxCrc := 0, st := .readCommand }
      [] ∧
    ∀ b : Byte, b ≠ s.cfg.startByte → exec (.dispatch (some b)) s =
      match exec (.dispatch (some b)) f with
      | .next t => .next { t with cfg := s.cfg }
      | .fault x => .fault x
      | .refused r => .refused r

/-- R110: outside `Idle` every byte value, a marker's too, is taken as field data: the operation completes, no frame is
started, no AckReceived is emitted, and the registers after it are the same whatever the marker values are. -/
def Obligations.MarkersInsideAFrameAreData : Prop :=
  ∀ (s : State) (b : Byte), s.eng.invariant → s.eng.live = true → s.cfg.midframeResync = false → s.eng.st ≠ .idle →
    ∃ t es, exec (.dispatch (some b)) s = .next t ∧ t.events = s.events ++ es ∧ t.eng.st ≠ .readCommand ∧
      (∀ k, OutEvent.ackReceived k ∉ es) ∧
      ∀ c : Config, c.midframeResync = false →
        ∃ u, exec (.dispatch (some b)) { s with cfg := c } = .next u ∧ u.eng = t.eng

/-! ### Whole-machine rules -/

/-- R39: SEND, SEND_ACK, SEND_NAK, CHECKSUM and SET_CALLBACKS write no register, and ABORT writes `st <- Idle` only. -/
def Obligations.NonReceiveOperationsWriteNoRegister : Prop :=
  ∀ (i : Instr) (s t : State), exec i s = .next t →
    ((∃ cmd data, i = .send cmd data) ∨ i = .sendAck ∨ i = .sendNak ∨ (∃ data, i = .checksum data) ∨
      (∃ m, i = .setCallbacks m) → t.eng = s.eng) ∧
    (i = .abort → t.eng = { s.eng with st := .idle })

/-- R20's "written by" column, R24, R32: no operation writes the configuration, the port or the record; only INIT writes
`live` and `cap`; only INIT and SET_CALLBACKS touch the bindings; only INIT and DISPATCH write the message fields, the
counters and the payload; only INIT, DISPATCH and ABORT write `st`. -/
def Obligations.OnlyTheNamedOperationsWrite : Prop :=
  ∀ (i : Instr) (s t : State), exec i s = .next t →
    t.cfg = s.cfg ∧ t.port = s.port ∧ t.record = s.record ∧
    ((∀ c, i ≠ .init c) → t.eng.live = s.eng.live ∧ t.eng.cap = s.eng.cap) ∧
    ((∀ c, i ≠ .init c) → (∀ m, i ≠ .setCallbacks m) → t.bindings = s.bindings) ∧
    ((∀ c, i ≠ .init c) → (∀ b, i ≠ .dispatch b) → t.eng = { s.eng with st := t.eng.st }) ∧
    ((∀ c, i ≠ .init c) → (∀ b, i ≠ .dispatch b) → i ≠ .abort → t.eng.st = s.eng.st)

/-- R116, R148: a DISPATCH emits at most two events, and two only for a decoded message followed by ACK. -/
def Obligations.DispatchEmitsAtMostTwoEvents : Prop :=
  ∀ (input : Option Byte) (s t : State), exec (.dispatch input) s = .next t →
    ∃ es, t.events = s.events ++ es ∧
      (es = [] ∨ (∃ k, es = [.ackReceived k]) ∨ es = [.outByte s.cfg.nakByte] ∨
        ∃ cmd len data, es = [.messageDecoded cmd len data, .outByte s.cfg.ackByte])

/-- R108, R116: a delivered message has exactly `len` data bytes, never more than `cap`, and its checksum is the received
one. -/
def Obligations.DeliveredMessagesAreValid : Prop :=
  ∀ (i : Instr) (s t : State) (es : List OutEvent) (cmd len : Byte) (data : List Byte), exec i s = .next t →
    t.events = s.events ++ es → OutEvent.messageDecoded cmd len data ∈ es →
    data.length = len.toNat ∧ data.length ≤ s.eng.cap.toNat ∧ cmd = s.eng.msgCmd ∧ crc16 data = t.eng.rxCrc

/-- R132 (the model's host side, log 10): every operation's events are produced whatever is bound; those whose callback the
host has replaced, and CHECKSUM's result, are delivered. An instance with no callback bound is inert: nothing but CHECKSUM's
result is delivered. -/
def Obligations.DeliveryFollowsTheBindings : Prop :=
  ∀ (i : Instr) (s t : State), exec i s = .next t →
    (∃ es, t.events = s.events ++ es ∧ t.delivered = s.delivered ++ es.filter (fun e =>
      match e with
      | .outByte _ => s.bindings.out
      | .messageDecoded _ _ _ => s.bindings.msg
      | .ackReceived _ => s.bindings.ack
      | .checksumResult _ => true)) ∧
    (s.bindings = { out := false, inp := false, msg := false, ack := false } → (∀ data, i ≠ .checksum data) →
      t.delivered = s.delivered) ∧
    ∀ (k : CallbackSlots), ∃ u, exec i { s with bindings := k } = .next u ∧ u.events = t.events ∧ u.eng = t.eng

/-- R142 (log 6), R48: over any run, events already emitted and faults and refusals already recorded stay. -/
def Obligations.NothingRecordedIsEverCleared : Prop :=
  ∀ (n : Nat) (s t : State), Host.Core.run Sys2Proof.core n s = .next t →
    ∃ (es : List OutEvent) (rs : List Recorded), t.events = s.events ++ es ∧ t.record = s.record ++ rs ∧ t.cfg = s.cfg

/-- R45: ABORT, SET_CALLBACKS and `DISPATCH none` done twice are as done once. -/
def Obligations.IdempotentOperations : Prop :=
  ∀ (i : Instr) (s t : State), i = .abort ∨ (∃ m, i = .setCallbacks m) ∨ i = .dispatch none →
    exec i s = .next t → exec i t = .next t

/-! ### The invariant -/

/-- R35, R37: the invariant holds before the first INIT, under every configuration, and in the reset state. -/
def Obligations.InvariantHoldsBeforeInit : Prop :=
  (∀ k, (State.resetWith k).eng.invariant) ∧ State.reset.eng.invariant

/-- R35: every step keeps the invariant: R35's list, no checksum byte counted while payload is read, and the payload
buffer canonical and inside `cap`. -/
def Obligations.StepKeepsTheInvariant : Prop :=
  ∀ s t : State, s.eng.invariant → step s = .next t → t.eng.invariant

/-- R16, R116, R141: from a state that meets the invariant no run ever stops: whatever the host issues, every step answers
a next state, so no payload access leaves the buffer and no error is fatal. That a recorded fault or refusal does not end the
run is log 6; the one stop there is, which the invariant rules out, is log 12. -/
def Obligations.NoRunEverStops : Prop :=
  ∀ (n : Nat) (s : State), s.eng.invariant →
    ∃ t : State, Host.Core.run Sys2Proof.core n s = .next t ∧ t.eng.invariant

/-! ### The protocol -/

/-- R112: feeding the frame of any command and any payload within the capacity to an idle instance delivers exactly that
message and then ACK, both on the last byte, and ends in `Idle`. -/
def Obligations.RoundTripDeliversTheMessage : Prop :=
  ∀ (s : State) (cmd : Byte) (p : List Byte), receiving s → p.length ≤ s.eng.cap.toNat →
    feedingGives (frameBytes s.cfg cmd p s.eng.cap.toNat) s .idle
      [.messageDecoded cmd (BitVec.ofNat 8 p.length) p, .outByte s.cfg.ackByte] ∧
    ∃ st, feedingGives (frameBytes s.cfg cmd p s.eng.cap.toNat).dropLast s st []

/-- R113: flip exactly one bit of one DATA, CRC_LO or CRC_HI byte of a frame and feed the result: NAK alone, no message. -/
def Obligations.SingleBitCorruptionIsRejected : Prop :=
  ∀ (s : State) (cmd : Byte) (p f : List Byte) (j k : Nat) (x : Byte), receiving s → p.length ≤ s.eng.cap.toNat →
    f = frameBytes s.cfg cmd p s.eng.cap.toNat → 3 ≤ j → f[j]? = some x → k < 8 →
    feedingGives (f.set j (x ^^^ BitVec.twoPow 8 k)) s .idle [.outByte s.cfg.nakByte]

/-- R65: after START the parser consumes exactly `LEN + 4` more bytes, being outside `Idle` after each of them but the last,
whatever the bytes are; and with LEN above the capacity it is in `Idle` again right after LEN, with a NAK. -/
def Obligations.LengthByteFixesTheFrameLength : Prop :=
  ∀ (s : State) (cmd len : Byte) (rest : List Byte), receiving s →
    (len.toNat ≤ s.eng.cap.toNat → rest.length = len.toNat + 2 →
      (∃ es, feedingGives (s.cfg.startByte :: cmd :: len :: rest) s .idle es) ∧
      ∀ n, n < len.toNat + 4 →
        ∃ st, st ≠ .idle ∧ feedingGives ((s.cfg.startByte :: cmd :: len :: rest).take (n + 1)) s st []) ∧
    (s.eng.cap.toNat < len.toNat →
      feedingGives [s.cfg.startByte, cmd, len] s .idle [.outByte s.cfg.nakByte])

/-- R163: a frame whose data, cut to the sender's capacity, is longer than the receiver's is answered NAK at its LEN byte. -/
def Obligations.FrameTooLongForThePeerIsNaked : Prop :=
  ∀ (s : State) (cmd : Byte) (data : List Byte) (cap : Nat), receiving s → cap ≤ 255 →
    s.eng.cap.toNat < min data.length cap →
    feedingGives ((frameBytes s.cfg cmd data cap).take 3) s .idle [.outByte s.cfg.nakByte]

/-- R114: between frames, bytes other than the three markers change nothing at all and emit nothing, however many. -/
def Obligations.NoiseBetweenFramesIsDiscarded : Prop :=
  ∀ (s : State) (bs : List Byte), s.eng.live = true → s.eng.st = .idle →
    (∀ b ∈ bs, b ≠ s.cfg.startByte ∧ b ≠ s.cfg.ackByte ∧ b ≠ s.cfg.nakByte) → execAll (feed bs) s = .next s

/-- R65, R103 to R108 (the count: what is left of a frame is at most CMD, LEN, `LEN <= cap` data bytes and two checksum
bytes) and R22's "No terminal state": from any live state that meets the invariant of R35, at most `cap + 4` received bytes
bring the parser back to `Idle`, whatever they are. -/
def Obligations.ParserReturnsToIdle : Prop :=
  ∀ (s : State) (bs : List Byte), s.eng.invariant → s.eng.live = true → s.cfg.midframeResync = false →
    bs.length = s.eng.cap.toNat + 4 → ∃ n es, n ≤ bs.length ∧ feedingGives (bs.take n) s .idle es

/-- R90, R112, R102: the link. What SEND transmits on one instance, fed to an idle peer with the same markers and room for
it, delivers the message cut to the sender's capacity and is answered ACK; that ACK byte, fed back to the sender in `Idle`,
is reported as a positive acknowledgment. -/
def Obligations.SentFramesAreDeliveredAndAcknowledged : Prop :=
  ∀ (a b : State) (cmd : Byte) (data : List Byte), a.eng.live = true → receiving b → a.cfg = b.cfg → markersDistinct a.cfg →
    min data.length a.eng.cap.toNat ≤ b.eng.cap.toNat →
    ∃ a' : State, exec (.send cmd data) a = .next a' ∧
      (∃ out : List Byte, transmitted a'.events = transmitted a.events ++ out ∧
        feedingGives out b .idle
          [.messageDecoded cmd (BitVec.ofNat 8 (min data.length a.eng.cap.toNat)) (data.take a.eng.cap.toNat),
           .outByte a.cfg.ackByte]) ∧
      (a.eng.st = .idle → feedingGives [a.cfg.ackByte] a' .idle [.ackReceived .positive])

/-! ### Several instances, and the assembler -/

/-- R36, R53: a step of one instance leaves every other as it is, depends on no other, and steps of two instances commute. -/
def Obligations.InstancesAreIndependent : Prop :=
  (∀ (y z : System) (n : Nat), y.stepInstance n = .next z →
    (∀ m, m ≠ n → z.instances[m]? = y.instances[m]?) ∧
    (∀ s, y.instances[n]? = some s → ∃ t, step s = .next t ∧ z.instances[n]? = some t)) ∧
  (∀ (y z w : System) (n m : Nat), n ≠ m → y.stepInstance n = .next z → z.stepInstance m = .next w →
    ∃ v, y.stepInstance m = .next v ∧ v.stepInstance n = .next w)

/-- R71, R72: the assembler binds START, ACK and NAK to the configured values, and each pseudo-instruction stands for its
DISPATCH operations. -/
def Obligations.AssemblerBindsTheMarkers : Prop :=
  ∀ k : Config,
    assembleLine k "FEED [START, ACK, NAK, 0x10, 16] ; text".toList =
      some [.dispatch (some k.startByte), .dispatch (some k.ackByte), .dispatch (some k.nakByte),
            .dispatch (some 0x10), .dispatch (some 0x10)] ∧
    assembleLine k "POLL".toList = some [.dispatch none] ∧
    assembleLine k "FEED_ACK".toList = some [.dispatch (some k.ackByte)] ∧
    assembleLine k "FEED_NAK".toList = some [.dispatch (some k.nakByte)] ∧
    assembleLine k "FEED_FRAME 0x09, [], 1".toList =
      some [.dispatch (some k.startByte), .dispatch (some 0x09), .dispatch (some 0x00), .dispatch (some 0xFF),
            .dispatch (some 0xFF)]

/-! ### The configuration -/

/-- R162, step 1: a configuration with P_MIDFRAME_RESYNC not `false` is refused CONFIG_INVALID, whatever is issued and
whatever the markers are; under distinct markers and `false` no step records that reason. That R145's reason also covers
this condition is log 8; that the refused byte string leaves the port whole is the model's choice (log 5), and that the step
goes on is log 6. -/
def Obligations.MidframeResyncConfigurationIsRefused : Prop :=
  ∀ (s : State) (x : Transaction) (rest : List Transaction), s.port = x :: rest →
    (s.cfg.midframeResync = true →
      step s = .next { s with port := rest, record := s.record ++ [.refusal .configInvalid] }) ∧
    (markersDistinct s.cfg → s.cfg.midframeResync = false →
      ∀ t, step s = .next t → t.record ≠ s.record ++ [.refusal .configInvalid])
end

