-- ==== Sys2Proof/Laws/Checksum.lean ====
section
/-! SUPPORT. Laws of the checksum: it folds byte by byte (40_checksum.md R82), and its step is linear over exclusive-or
and injective, since the polynomial's lowest bit is set. -/

namespace Sys2Proof.Machine

@[simp] theorem crc16_nil : crc16 [] = crcInitialValue := rfl

/-- Composition (R82): the checksum of `s ++ t` folds `t` in from the checksum of `s`. -/
theorem crc16_append (s t : List Byte) : crc16 (s ++ t) = t.foldl crcStep (crc16 s) := by
  simp [crc16, List.foldl_append]

/-- One pass without the condition: the top bit selects the polynomial. -/
theorem crcShift_eq (c : Half) :
    crcShift c = (c <<< 1) ^^^ (if c.getLsbD 15 then crcPolynomial else 0) := by
  unfold crcShift
  split <;> simp

theorem xor_select (x y : Bool) (a b p : Half) :
    (a ^^^ b) ^^^ (if (x ^^ y) = true then p else 0) =
      (a ^^^ (if x = true then p else 0)) ^^^ (b ^^^ (if y = true then p else 0)) := by
  have h : a ^^^ p ^^^ (b ^^^ p) = a ^^^ b ^^^ (p ^^^ p) := by ac_rfl
  cases x <;> cases y <;> simp [h] <;> ac_rfl

theorem crcShift_xor (a b : Half) : crcShift (a ^^^ b) = crcShift a ^^^ crcShift b := by
  simp only [crcShift_eq, BitVec.getLsbD_xor, BitVec.shiftLeft_xor_distrib, xor_select]

/-- A pass is invertible: bit 0 of its result is the bit that was shifted out. -/
theorem crcShift_eq_zero {c : Half} (h : crcShift c = 0) : c = 0 := by
  rw [crcShift_eq] at h
  have h0 := congrArg (fun v : Half => v.getLsbD 0) h
  cases h15 : c.getLsbD 15 with
  | true => simp [h15, crcPolynomial] at h0
  | false =>
    rw [h15] at h
    have h' : c <<< 1 = 0 := by simpa using h
    ext i hi
    by_cases hi15 : i = 15
    · subst hi15; simpa [BitVec.getLsbD_eq_getElem] using h15
    · have := congrArg (fun v : Half => v.getLsbD (i + 1)) h'
      have hlt : i + 1 < 16 := by omega
      simpa [BitVec.getLsbD_shiftLeft, hlt, BitVec.getLsbD_eq_getElem hi] using this

theorem crcShifts_xor (n : Nat) (a b : Half) : crcShifts n (a ^^^ b) = crcShifts n a ^^^ crcShifts n b := by
  induction n generalizing a b with
  | zero => rfl
  | succ n ih => simp only [crcShifts, crcShift_xor, ih]

theorem crcShifts_eq_zero {n : Nat} {c : Half} (h : crcShifts n c = 0) : c = 0 := by
  induction n generalizing c with
  | zero => exact h
  | succ n ih => exact crcShift_eq_zero (ih h)

/-- The step is linear in the register and the byte together. -/
theorem crcStep_xor (c d : Half) (a b : Byte) : crcStep (c ^^^ d) (a ^^^ b) = crcStep c a ^^^ crcStep d b := by
  have h : (c ^^^ d) ^^^ (zext16 (a ^^^ b) <<< 8) = (c ^^^ (zext16 a <<< 8)) ^^^ (d ^^^ (zext16 b <<< 8)) := by
    have hz : zext16 (a ^^^ b) <<< 8 = (zext16 a <<< 8) ^^^ (zext16 b <<< 8) := by
      simp [zext16, BitVec.shiftLeft_xor_distrib]
    rw [hz]
    ac_rfl
  rw [crcStep, h, crcShifts_xor]
  rfl

end Sys2Proof.Machine
end

