-- ==== Sys2Proof/Laws/Decode.lean ====
section
/-! SUPPORT. The laws of operand assembly and of the pieces of the transaction decoder. -/

namespace Sys2Proof

theorem wellFormed_init {c : Nat} : (Instr.init c).wellFormed = true ↔ c ≤ 255 := decide_eq_true_iff

theorem wellFormed_send {cmd : Byte} {data : List Byte} :
    (Instr.send cmd data).wellFormed = true ↔ data.length ≤ 65535 := decide_eq_true_iff

theorem wellFormed_checksum {data : List Byte} :
    (Instr.checksum data).wellFormed = true ↔ data.length ≤ 65535 := decide_eq_true_iff

@[simp] theorem half_lowByte_highByte (v : Half) : half (lowByte v) (highByte v) = v := by
  ext i hi
  by_cases h : i < 8
  · simp [half, zext16, lowByte, highByte, h, BitVec.getLsbD_eq_getElem hi]
  · have h' : 8 + (i - 8) = i := by omega
    have h'' : i - 8 < 8 := by omega
    simp [half, zext16, lowByte, highByte, h, h', h'', BitVec.getLsbD_eq_getElem hi]

@[simp] theorem lowByte_half (lo hi : Byte) : lowByte (half lo hi) = lo := by
  ext i hi'
  have : i < 16 := by omega
  simp [half, zext16, lowByte, hi', this]

@[simp] theorem highByte_half (lo hi : Byte) : highByte (half lo hi) = hi := by
  ext i hi'
  have : 8 + i < 16 := by omega
  simp [half, zext16, highByte, hi', this]

/-- The value of a 16-bit count carried low byte first (R68). -/
theorem half_toNat (lo hi : Byte) : (half lo hi).toNat = lo.toNat + 256 * hi.toNat := by
  have h1 := lo.isLt
  have h2 := hi.isLt
  have hs : (zext16 hi <<< 8).toNat = hi.toNat * 2 ^ 8 := by
    simp [zext16, BitVec.toNat_shiftLeft, BitVec.toNat_setWidth, Nat.shiftLeft_eq]
    omega
  rw [half, BitVec.toNat_or, hs, Nat.lor_comm, ← Nat.shiftLeft_eq, ← Nat.shiftLeft_add_eq_or_of_lt]
  · simp [zext16, Nat.shiftLeft_eq]; omega
  · simp [zext16]; omega

@[simp] theorem slotsOfMask_maskOfSlots (k : CallbackSlots) : slotsOfMask (maskOfSlots k) = k := by
  obtain ⟨a, b, c, d⟩ := k
  cases a <;> cases b <;> cases c <;> cases d <;> decide

@[simp] theorem maskReserved_maskOfSlots (k : CallbackSlots) : maskReserved (maskOfSlots k) = 0 := by
  obtain ⟨a, b, c, d⟩ := k
  cases a <;> cases b <;> cases c <;> cases d <;> decide

/-- A mask byte with no reserved bit set is the mask of the slots it selects. -/
theorem maskOfSlots_slotsOfMask {m : Byte} (h : maskReserved m = 0) : maskOfSlots (slotsOfMask m) = m := by
  revert m
  decide +kernel

theorem splitBytes_eq_some {n : Nat} {bs data tail : List Byte} :
    splitBytes n bs = some (data, tail) ↔ data.length = n ∧ bs = data ++ tail := by
  unfold splitBytes
  constructor
  · intro h
    split at h
    · next hn =>
      simp only [Option.some.injEq, Prod.mk.injEq] at h
      obtain ⟨rfl, rfl⟩ := h
      simp [hn]
    · cases h
  · rintro ⟨rfl, rfl⟩
    simp

theorem splitBytes_eq_none {n : Nat} {bs : List Byte} : splitBytes n bs = none ↔ bs.length < n := by
  unfold splitBytes
  split
  · next h => simp [h]
  · next h => simpa using h

/-- Decoding a carried data operand gives it back, with the bytes after it. -/
theorem decodeData_encodeData {data : List Byte} (h : data.length ≤ maxDataLength) (rest : List Byte) :
    decodeData (encodeData data ++ rest) = some (data, rest) := by
  have hn : (half (lowByte (BitVec.ofNat 16 data.length)) (highByte (BitVec.ofNat 16 data.length))).toNat = data.length := by
    rw [half_lowByte_highByte, BitVec.toNat_ofNat, Nat.mod_eq_of_lt]
    unfold maxDataLength at h
    omega
  simp only [encodeData, List.cons_append, decodeData, hn]
  exact splitBytes_eq_some.2 ⟨rfl, rfl⟩

/-- What a data operand was read from is its carried form. -/
theorem decodeData_eq_some {bs data tail : List Byte} (h : decodeData bs = some (data, tail)) :
    data.length ≤ maxDataLength ∧ bs = encodeData data ++ tail := by
  unfold decodeData at h
  split at h
  · next lo hi bs =>
    obtain ⟨hl, rfl⟩ := splitBytes_eq_some.1 h
    have hlt := (half lo hi).isLt
    have hv : BitVec.ofNat 16 data.length = half lo hi := by rw [hl]; simp
    refine ⟨by unfold maxDataLength; omega, ?_⟩
    simp [encodeData, hv]
  · cases h

end Sys2Proof
end

