-- ==== Sys2Proof/Laws/Memory.lean ====
section
/-! SUPPORT. The laws of the payload buffer: reading after writing, the canonical form, and what each access can do. -/

namespace Sys2Proof.Machine

@[simp] theorem Memory.get_nil (i : Nat) : Memory.get [] i = unlistedByte := rfl

theorem Memory.get_above {m : Memory} {i : Nat} (h : ∀ c ∈ m, i < c.1) : m.get i = unlistedByte := by
  induction m with
  | nil => rfl
  | cons c m ih =>
    have hc := h c (by simp)
    simp only [Memory.get]
    rw [if_neg (by omega)]
    exact ih fun d hd => h d (by simp [hd])

theorem Memory.get_cons {m : Memory} {i : Nat} (v : Byte) (h : ∀ c ∈ m, i < c.1) (j : Nat) :
    (Memory.cons i v m).get j = if j = i then v else m.get j := by
  unfold Memory.cons
  by_cases hv : v = unlistedByte
  · by_cases hj : j = i
    · subst hj; simp [hv, Memory.get_above h]
    · simp [hv, hj]
  · by_cases hj : j = i
    · simp [hv, hj, Memory.get]
    · simp [hv, hj, Memory.get, Ne.symm hj]

/-- Reading after writing: the byte written at its own index, the old byte at every other. -/
theorem Memory.get_put {m : Memory} (h : m.wf) (i : Nat) (v : Byte) (j : Nat) :
    (m.put i v).get j = if j = i then v else m.get j := by
  induction m with
  | nil => simpa [Memory.put] using Memory.get_cons v (m := []) (i := i) (by simp) j
  | cons c m ih =>
    obtain ⟨a, x⟩ := c
    have hw := h.1
    rw [List.pairwise_cons] at hw
    have hm : Memory.wf m := ⟨hw.2, fun d hd => h.2 d (by simp [hd])⟩
    simp only [Memory.put]
    split
    · next hi =>
      refine Memory.get_cons v (fun d hd => ?_) j
      rcases List.mem_cons.1 hd with rfl | hd
      · exact hi
      · have := hw.1 d hd; simp only at this; omega
    · split
      · next hi =>
        subst hi
        rw [Memory.get_cons v (fun d hd => hw.1 d hd) j]
        by_cases hj : j = i
        · simp [hj]
        · simp [hj, Memory.get, Ne.symm hj]
      · simp only [Memory.get, ih hm]
        by_cases hj : j = i
        · subst hj; simp_all [eq_comm]
        · simp [hj]

theorem Memory.mem_cons {m : Memory} {i : Nat} {v : Byte} {c : Host.Cell} (h : c ∈ Memory.cons i v m) :
    c = (i, v) ∧ v ≠ unlistedByte ∨ c ∈ m := by
  unfold Memory.cons at h
  split at h
  · exact .inr h
  · next hv => exact (List.mem_cons.1 h).imp (⟨·, hv⟩) id

theorem Memory.mem_put {m : Memory} {i : Nat} {v : Byte} {c : Host.Cell} (h : c ∈ m.put i v) :
    c = (i, v) ∧ v ≠ unlistedByte ∨ c ∈ m := by
  induction m with
  | nil => exact Memory.mem_cons h
  | cons d m ih =>
    simp only [Memory.put] at h
    split at h
    · exact Memory.mem_cons h
    · split at h
      · exact (Memory.mem_cons h).imp id (List.mem_cons_of_mem _)
      · rcases List.mem_cons.1 h with h | h
        · exact .inr (by simp [h])
        · exact (ih h).imp id (List.mem_cons_of_mem _)

theorem Memory.cons_wf {m : Memory} {i : Nat} {v : Byte} (hm : m.wf) (h : ∀ c ∈ m, i < c.1) :
    (Memory.cons i v m).wf := by
  refine ⟨?_, fun c hc => ?_⟩
  · unfold Memory.cons
    split
    · exact hm.1
    · exact List.pairwise_cons.2 ⟨h, hm.1⟩
  · rcases Memory.mem_cons hc with ⟨rfl, hv⟩ | hc
    · exact hv
    · exact hm.2 c hc

/-- A write keeps the canonical form. -/
theorem Memory.put_wf {m : Memory} (hm : m.wf) (i : Nat) (v : Byte) : (m.put i v).wf := by
  induction m with
  | nil => exact Memory.cons_wf hm (by simp)
  | cons c m ih =>
    obtain ⟨a, x⟩ := c
    have hw := List.pairwise_cons.1 hm.1
    have hm' : Memory.wf m := ⟨hw.2, fun d hd => hm.2 d (by simp [hd])⟩
    simp only [Memory.put]
    split
    · next hi =>
      refine Memory.cons_wf hm fun d hd => ?_
      rcases List.mem_cons.1 hd with rfl | hd
      · exact hi
      · exact Nat.lt_trans hi (hw.1 d hd)
    · split
      · next hi => subst hi; exact Memory.cons_wf hm' hw.1
      · refine ⟨List.pairwise_cons.2 ⟨fun d hd => ?_, (ih hm').1⟩, fun d hd => ?_⟩
        · rcases Memory.mem_put hd with ⟨rfl, -⟩ | hd
          · simp only; omega
          · exact hw.1 d hd
        · rcases List.mem_cons.1 hd with rfl | hd
          · exact hm.2 _ (by simp)
          · exact (ih hm').2 d hd

/-- A write below `n` keeps every listed index below `n`. -/
theorem Memory.put_within {m : Memory} {n i : Nat} (hm : m.within n) (hi : i < n) (v : Byte) : (m.put i v).within n := by
  intro c hc
  rcases Memory.mem_put hc with ⟨rfl, -⟩ | hc
  · exact hi
  · exact hm c hc

theorem Memory.zeros_wf : Memory.zeros.wf := ⟨List.Pairwise.nil, by simp [Memory.zeros]⟩

theorem Memory.zeros_within (n : Nat) : Memory.zeros.within n := by simp [Memory.within, Memory.zeros]

/-- Two canonical memories that read alike are equal data. -/
theorem Memory.ext {m m' : Memory} (h : m.wf) (h' : m'.wf) (heq : ∀ i, m.get i = m'.get i) : m = m' := by
  induction m generalizing m' with
  | nil =>
    cases m' with
    | nil => rfl
    | cons c m' =>
      have := heq c.1
      simp only [Memory.get, if_pos] at this
      exact absurd this.symm (h'.2 c (by simp))
  | cons c m ih =>
    have hw := List.pairwise_cons.1 h.1
    cases m' with
    | nil =>
      have := heq c.1
      simp only [Memory.get, if_pos] at this
      exact absurd this (h.2 c (by simp))
    | cons d m' =>
      have hw' := List.pairwise_cons.1 h'.1
      have e1 := heq c.1
      have e2 := heq d.1
      obtain ⟨a, x⟩ := c
      obtain ⟨b, y⟩ := d
      have hab : a = b := by
        rcases Nat.lt_trichotomy a b with hlt | heq' | hlt
        · rw [Memory.get_above (m := (b, y) :: m') (fun c hc => ?_)] at e1
          · simp only [Memory.get, if_pos] at e1
            exact absurd e1 (h.2 (a, x) (by simp))
          · rcases List.mem_cons.1 hc with rfl | hc
            · exact hlt
            · exact Nat.lt_trans hlt (hw'.1 c hc)
        · exact heq'
        · rw [Memory.get_above (m := (a, x) :: m) (fun c hc => ?_)] at e2
          · simp only [Memory.get, if_pos] at e2
            exact absurd e2.symm (h'.2 (b, y) (by simp))
          · rcases List.mem_cons.1 hc with rfl | hc
            · exact hlt
            · exact Nat.lt_trans hlt (hw.1 c hc)
      subst hab
      simp only [Memory.get, if_pos] at e1
      subst e1
      congr 1
      refine ih ⟨hw.2, fun d hd => h.2 d (by simp [hd])⟩ ⟨hw'.2, fun d hd => h'.2 d (by simp [hd])⟩ fun i => ?_
      have := heq i
      simp only [Memory.get] at this
      split at this
      · next hi =>
        subst hi
        rw [Memory.get_above hw.1, Memory.get_above hw'.1]
      · exact this

/-- The loop of R101 and R130, MemWrite(i, 1, 0x00) over every index, leaves `Memory.zeros`. -/
theorem Memory.zeros_eq_writes {m : Memory} {n : Nat} (h : m.wf) (hn : m.within n) :
    (List.range n).foldl (fun m i => m.put i 0) m = Memory.zeros := by
  have key : ∀ k, let m' := (List.range k).foldl (fun m i => m.put i 0) m
      m'.wf ∧ ∀ i, m'.get i = if i < k then unlistedByte else m.get i := by
    intro k
    induction k with
    | zero => exact ⟨h, fun i => by simp⟩
    | succ k ih =>
      simp only [List.range_succ, List.foldl_append, List.foldl_cons, List.foldl_nil]
      refine ⟨Memory.put_wf ih.1 _ _, fun i => ?_⟩
      rw [Memory.get_put ih.1, ih.2]
      by_cases hk : i = k
      · simp [hk, unlistedByte]
      · have : (i < k + 1) = (i < k) := by simp; omega
        simp [hk, this]
  refine Memory.ext (key n).1 Memory.zeros_wf fun i => ?_
  rw [(key n).2 i]
  split
  · rfl
  · next hi =>
    clear key
    induction m with
    | nil => rfl
    | cons c m ih =>
      have hc := hn c (by simp)
      simp only [Memory.get]
      rw [if_neg (by omega)]
      exact ih ⟨(List.pairwise_cons.1 h.1).2, fun d hd => h.2 d (by simp [hd])⟩ fun d hd => hn d (by simp [hd])

/-! ### Accesses through the engine -/

theorem memRead_ok {e : Engine} {i : Nat} (h : i < e.cap.toNat) : e.memRead i = .ok (e.payload.get i) := by
  simp [Engine.memRead, h]

theorem memRead_eq_ok {e : Engine} {i : Nat} {b : Byte} :
    e.memRead i = .ok b ↔ i < e.cap.toNat ∧ b = e.payload.get i := by
  unfold Engine.memRead
  split <;> simp [*, eq_comm]

theorem memWrite_eq_ok {e e' : Engine} {i : Nat} {v : Byte} :
    e.memWrite i v = .ok e' ↔ i < e.cap.toNat ∧ e' = { e with payload := e.payload.put i v } := by
  unfold Engine.memWrite
  split <;> simp [*, eq_comm]

theorem memWrite_error {e : Engine} {i : Nat} {v : Byte} {f : Fault} :
    e.memWrite i v = .error f ↔ e.cap.toNat ≤ i ∧ f = .payloadIndexOutOfRange := by
  unfold Engine.memWrite
  split
  · simp; omega
  · next h => simp [Nat.not_lt.1 h, eq_comm]

/-- A run of reads inside the buffer gives its bytes in index order. -/
theorem memReadRun_ok {e : Engine} {i n : Nat} (h : i + n ≤ e.cap.toNat) :
    e.memReadRun i n = .ok ((List.range' i n).map e.payload.get) := by
  induction n generalizing i with
  | zero => rfl
  | succ n ih => simp [Engine.memReadRun, memRead_ok (show i < e.cap.toNat by omega), ih (i := i + 1) (by omega), List.range'_succ]

/-- A run of reads that answers stayed inside the buffer. -/
theorem memReadRun_eq_ok {e : Engine} {i n : Nat} {bs : List Byte} (hi : i ≤ e.cap.toNat)
    (h : e.memReadRun i n = .ok bs) : i + n ≤ e.cap.toNat ∧ bs = (List.range' i n).map e.payload.get := by
  have hle : i + n ≤ e.cap.toNat := by
    induction n generalizing i bs with
    | zero => simpa using hi
    | succ n ih =>
      simp only [Engine.memReadRun] at h
      split at h
      · cases h
      · next hb =>
        split at h
        · cases h
        · next hbs =>
          have := ih (by have := (memRead_eq_ok.1 hb).1; omega) hbs
          omega
  refine ⟨hle, ?_⟩
  rw [memReadRun_ok hle] at h
  simpa [eq_comm] using h

/-- A run of reads that leaves the buffer faults. -/
theorem memReadRun_outside {e : Engine} {i n : Nat} (hi : i ≤ e.cap.toNat) (h : e.cap.toNat < i + n) :
    e.memReadRun i n = .error .payloadIndexOutOfRange := by
  induction n generalizing i with
  | zero => omega
  | succ n ih =>
    by_cases hlt : i < e.cap.toNat
    · simp [Engine.memReadRun, memRead_ok hlt, ih (i := i + 1) (by omega) (by omega)]
    · simp [Engine.memReadRun, Engine.memRead, hlt]

end Sys2Proof.Machine
end

