-- ==== Sys2Proof/Laws/State.lean ====
section
/-! SUPPORT. One lemma per field per update of State: no later proof unfolds a record update. -/

namespace Sys2Proof.Machine

variable (s : State)

@[simp] theorem State.withEngine_cfg (e : Engine) : (s.withEngine e).cfg = s.cfg := rfl
@[simp] theorem State.withEngine_eng (e : Engine) : (s.withEngine e).eng = e := rfl
@[simp] theorem State.withEngine_bindings (e : Engine) : (s.withEngine e).bindings = s.bindings := rfl
@[simp] theorem State.withEngine_port (e : Engine) : (s.withEngine e).port = s.port := rfl
@[simp] theorem State.withEngine_events (e : Engine) : (s.withEngine e).events = s.events := rfl
@[simp] theorem State.withEngine_delivered (e : Engine) : (s.withEngine e).delivered = s.delivered := rfl
@[simp] theorem State.withEngine_record (e : Engine) : (s.withEngine e).record = s.record := rfl

@[simp] theorem State.withBindings_cfg (k : CallbackSlots) : (s.withBindings k).cfg = s.cfg := rfl
@[simp] theorem State.withBindings_eng (k : CallbackSlots) : (s.withBindings k).eng = s.eng := rfl
@[simp] theorem State.withBindings_bindings (k : CallbackSlots) : (s.withBindings k).bindings = k := rfl
@[simp] theorem State.withBindings_port (k : CallbackSlots) : (s.withBindings k).port = s.port := rfl
@[simp] theorem State.withBindings_events (k : CallbackSlots) : (s.withBindings k).events = s.events := rfl
@[simp] theorem State.withBindings_delivered (k : CallbackSlots) : (s.withBindings k).delivered = s.delivered := rfl
@[simp] theorem State.withBindings_record (k : CallbackSlots) : (s.withBindings k).record = s.record := rfl

@[simp] theorem State.withPort_cfg (p : List Transaction) : (s.withPort p).cfg = s.cfg := rfl
@[simp] theorem State.withPort_eng (p : List Transaction) : (s.withPort p).eng = s.eng := rfl
@[simp] theorem State.withPort_bindings (p : List Transaction) : (s.withPort p).bindings = s.bindings := rfl
@[simp] theorem State.withPort_port (p : List Transaction) : (s.withPort p).port = p := rfl
@[simp] theorem State.withPort_events (p : List Transaction) : (s.withPort p).events = s.events := rfl
@[simp] theorem State.withPort_delivered (p : List Transaction) : (s.withPort p).delivered = s.delivered := rfl
@[simp] theorem State.withPort_record (p : List Transaction) : (s.withPort p).record = s.record := rfl

@[simp] theorem State.note_cfg (r : Recorded) : (s.note r).cfg = s.cfg := rfl
@[simp] theorem State.note_eng (r : Recorded) : (s.note r).eng = s.eng := rfl
@[simp] theorem State.note_bindings (r : Recorded) : (s.note r).bindings = s.bindings := rfl
@[simp] theorem State.note_port (r : Recorded) : (s.note r).port = s.port := rfl
@[simp] theorem State.note_events (r : Recorded) : (s.note r).events = s.events := rfl
@[simp] theorem State.note_delivered (r : Recorded) : (s.note r).delivered = s.delivered := rfl
@[simp] theorem State.note_record (r : Recorded) : (s.note r).record = s.record ++ [r] := rfl

@[simp] theorem State.emit_cfg (es : List OutEvent) : (s.emit es).cfg = s.cfg := rfl
@[simp] theorem State.emit_eng (es : List OutEvent) : (s.emit es).eng = s.eng := rfl
@[simp] theorem State.emit_bindings (es : List OutEvent) : (s.emit es).bindings = s.bindings := rfl
@[simp] theorem State.emit_port (es : List OutEvent) : (s.emit es).port = s.port := rfl
@[simp] theorem State.emit_events (es : List OutEvent) : (s.emit es).events = s.events ++ es := rfl
@[simp] theorem State.emit_delivered (es : List OutEvent) : (s.emit es).delivered = s.delivered ++ es.filter (slotReceives s.bindings) := rfl
@[simp] theorem State.emit_record (es : List OutEvent) : (s.emit es).record = s.record := rfl

/-- Emitting nothing changes nothing. -/
@[simp] theorem State.emit_nil : s.emit [] = s := by simp [State.emit]

/-- Two emissions are one of both lists. -/
@[simp] theorem State.emit_emit (es fs : List OutEvent) : (s.emit es).emit fs = s.emit (es ++ fs) := by
  simp [State.emit]

@[simp] theorem State.withEngine_eng_self : s.withEngine s.eng = s := rfl

@[simp] theorem State.withEngine_withEngine (e f : Engine) : (s.withEngine e).withEngine f = s.withEngine f := rfl

@[simp] theorem ackEvent_withEngine (e : Engine) : ackEvent (s.withEngine e) = ackEvent s := rfl

@[simp] theorem nakEvent_withEngine (e : Engine) : nakEvent (s.withEngine e) = nakEvent s := rfl

end Sys2Proof.Machine
end

