-- ==== Sys2Proof/Laws/Exec.lean ====
section
/-! SUPPORT. What each meaning can do, said once: the state it answers, and nothing else. -/

namespace Sys2Proof.Machine

variable {s t : State}

theorem whenLive_of_live {r : Result} (h : s.eng.live = true) : whenLive s r = r := by simp [whenLive, h]

theorem whenLive_of_not_live {r : Result} (h : s.eng.live = false) : whenLive s r = .refused .notInitialized := by
  simp [whenLive, h]

/-- An operation that checks `live` answers a state only on a live instance, and then it is its own effect. -/
theorem whenLive_eq_next {r : Result} : whenLive s r = .next t ↔ s.eng.live = true ∧ r = .next t := by
  cases h : s.eng.live <;> simp [whenLive, h]

theorem next_inj {a b : State} : (Host.Outcome.next a : Result) = .next b ↔ a = b :=
  ⟨fun h => by injection h, fun h => by rw [h]⟩

theorem execInit_eq_next {c : Nat} : execInit c s = .next t ↔
    (1 ≤ c ∧ c ≤ maxCapacity) ∧
      t = (s.withEngine (initialized (BitVec.ofNat 8 c))).withBindings CallbackSlots.none := by
  unfold execInit
  split
  · constructor
    · intro h; cases h
    · rintro ⟨⟨h1, h2⟩, -⟩; omega
  · rw [next_inj, eq_comm]
    exact ⟨fun h => ⟨⟨by omega, by omega⟩, h⟩, And.right⟩

theorem execSend_eq_next {cmd : Byte} {data : List Byte} : execSend cmd data s = .next t ↔
    s.eng.live = true ∧ t = s.emit ((frameBytes s.cfg cmd data s.eng.cap.toNat).map .outByte) := by
  rw [execSend, whenLive_eq_next, next_inj, eq_comm (a := t)]

theorem execSendAck_eq_next : execSendAck s = .next t ↔ s.eng.live = true ∧ t = s.emit [ackEvent s] := by
  rw [execSendAck, whenLive_eq_next, next_inj, eq_comm (a := t)]

theorem execSendNak_eq_next : execSendNak s = .next t ↔ s.eng.live = true ∧ t = s.emit [nakEvent s] := by
  rw [execSendNak, whenLive_eq_next, next_inj, eq_comm (a := t)]

theorem execChecksum_eq_next {data : List Byte} : execChecksum data s = .next t ↔
    s.eng.live = true ∧ t = s.emit [.checksumResult (crc16 data)] := by
  rw [execChecksum, whenLive_eq_next, next_inj, eq_comm (a := t)]

theorem execAbort_eq_next : execAbort s = .next t ↔
    s.eng.live = true ∧ t = s.withEngine { s.eng with st := .idle } := by
  rw [execAbort, whenLive_eq_next, next_inj, eq_comm (a := t)]

theorem execSetCallbacks_eq_next {m : CallbackSlots} : execSetCallbacks m s = .next t ↔
    s.eng.live = true ∧ t = s.withBindings (s.bindings.union m) := by
  rw [execSetCallbacks, whenLive_eq_next, next_inj, eq_comm (a := t)]

theorem execDispatch_none_eq_next : execDispatch none s = .next t ↔ s.eng.live = true ∧ t = s := by
  rw [execDispatch, whenLive_eq_next, next_inj, eq_comm (a := t)]

theorem execDispatch_some_eq_next {b : Byte} : execDispatch (some b) s = .next t ↔
    s.eng.live = true ∧ dispatchByte b s = .next t := by
  rw [execDispatch, whenLive_eq_next]

/-! ### The transitions of the parser -/

/-- `Idle` answers on every byte: a new frame, an acknowledgment, or nothing. -/
theorem idleByte_cases (b : Byte) (s : State) :
    (b = s.cfg.startByte ∧ idleByte b s = .next (s.withEngine (beginFrame s.eng))) ∨
    (b ≠ s.cfg.startByte ∧ b = s.cfg.ackByte ∧ idleByte b s = .next (s.emit [.ackReceived .positive])) ∨
    (b ≠ s.cfg.startByte ∧ b ≠ s.cfg.ackByte ∧ b = s.cfg.nakByte ∧
      idleByte b s = .next (s.emit [.ackReceived .negative])) ∨
    (b ≠ s.cfg.startByte ∧ b ≠ s.cfg.ackByte ∧ b ≠ s.cfg.nakByte ∧ idleByte b s = .next s) := by
  unfold idleByte
  by_cases h1 : b = s.cfg.startByte
  · exact .inl ⟨h1, by rw [if_pos h1]⟩
  · by_cases h2 : b = s.cfg.ackByte
    · exact .inr (.inl ⟨h1, h2, by rw [if_neg h1, if_pos h2]⟩)
    · by_cases h3 : b = s.cfg.nakByte
      · exact .inr (.inr (.inl ⟨h1, h2, h3, by rw [if_neg h1, if_neg h2, if_pos h3]⟩))
      · exact .inr (.inr (.inr ⟨h1, h2, h3, by rw [if_neg h1, if_neg h2, if_neg h3]⟩))

theorem lengthOverCapacity_iff {len cap : Byte} : lengthOverCapacity len cap = true ↔ cap.toNat < len.toNat := by
  simp [lengthOverCapacity, BitVec.ult]

/-- `ReadLength` answers on every byte: over-length, empty, or payload to come. -/
theorem readLength_cases (b : Byte) (s : State) :
    (s.eng.cap.toNat < b.toNat ∧
      readLength b s = .next ((s.withEngine { s.eng with msgLen := b, st := .idle }).emit [nakEvent s])) ∨
    (b = 0 ∧ readLength b s = .next (s.withEngine { s.eng with msgLen := b, st := .readChecksum })) ∨
    (b ≠ 0 ∧ b.toNat ≤ s.eng.cap.toNat ∧
      readLength b s = .next (s.withEngine { s.eng with msgLen := b, st := .readData })) := by
  unfold readLength
  by_cases h1 : s.eng.cap.toNat < b.toNat
  · exact .inl ⟨h1, by simp only [lengthOverCapacity_iff.2 h1, if_true]⟩
  · have h1' : ¬ lengthOverCapacity b s.eng.cap = true := mt lengthOverCapacity_iff.1 h1
    by_cases h2 : b = 0
    · exact .inr (.inl ⟨h2, by simp only [if_neg h1', if_pos h2]⟩)
    · exact .inr (.inr ⟨h2, Nat.not_lt.1 h1, by simp only [if_neg h1', if_neg h2]⟩)

/-- `ReadData` inside the buffer. -/
theorem readData_ok {b : Byte} (h : s.eng.rxCount.toNat < s.eng.cap.toNat) :
    readData b s = .next (s.withEngine { s.eng with
      payload := s.eng.payload.put s.eng.rxCount.toNat b, rxCount := s.eng.rxCount + 1,
      st := if s.eng.rxCount + 1 = s.eng.msgLen then .readChecksum else s.eng.st }) := by
  have hw : s.eng.memWrite s.eng.rxCount.toNat b =
      .ok { s.eng with payload := s.eng.payload.put s.eng.rxCount.toNat b } := memWrite_eq_ok.2 ⟨h, rfl⟩
  simp only [readData, hw]
  congr 2
  split <;> rfl

/-- `ReadData` answers a state only from inside the buffer. -/
theorem readData_eq_next {b : Byte} (h : readData b s = .next t) : s.eng.rxCount.toNat < s.eng.cap.toNat := by
  unfold readData at h
  split at h
  · cases h
  · next hw => exact (memWrite_eq_ok.1 hw).1

/-- The payload the parser verifies: the first `msg_len` bytes of the buffer (R108). -/
def receivedData (e : Engine) : List Byte := (List.range e.msgLen.toNat).map e.payload.get

/-- The registers after CRC_HI (R108). -/
def afterCrcHi (e : Engine) (b : Byte) : Engine :=
  { e with rxCrc := withHighByte e.rxCrc b, crcCount := 2, st := .idle }

/-- The second checksum byte, with the message inside the buffer: delivery and ACK, or NAK. -/
theorem readCrcHi_ok {b : Byte} (h : s.eng.msgLen.toNat ≤ s.eng.cap.toNat) :
    readCrcHi b s = .next ((s.withEngine (afterCrcHi s.eng b)).emit
      (if withHighByte s.eng.rxCrc b = crc16 (receivedData s.eng) then
        [.messageDecoded s.eng.msgCmd s.eng.msgLen (receivedData s.eng), ackEvent s]
       else [nakEvent s])) := by
  have hr : (afterCrcHi s.eng b).memReadRun 0 s.eng.msgLen.toNat = .ok (receivedData s.eng) := by
    rw [memReadRun_ok (by simpa [afterCrcHi] using h), ← List.range_eq_range']
    rfl
  simp only [afterCrcHi] at hr
  simp only [readCrcHi, hr, checksumMatches, beq_iff_eq]
  split <;> rfl

/-- The second checksum byte answers a state only with the message inside the buffer. -/
theorem readCrcHi_eq_next {b : Byte} (h : readCrcHi b s = .next t) : s.eng.msgLen.toNat ≤ s.eng.cap.toNat := by
  unfold readCrcHi at h
  simp only at h
  split at h
  · cases h
  · next hr => simpa using (memReadRun_eq_ok (Nat.zero_le _) hr).1

/-- With no mid-frame restart, a byte takes the transition of the parser state. -/
theorem dispatchByte_of_no_restart {b : Byte} (h : restartsFrame s b = false) : dispatchByte b s = transition b s := by
  simp [dispatchByte, h]

theorem restartsFrame_of_false {b : Byte} (h : s.cfg.midframeResync = false) : restartsFrame s b = false := by
  simp [restartsFrame, h]

theorem restartsFrame_of_idle {b : Byte} (h : s.eng.st = .idle) : restartsFrame s b = false := by
  simp [restartsFrame, h]

/-- A mid-frame restart begins a frame (R109). -/
theorem dispatchByte_of_restart {b : Byte} (h : restartsFrame s b = true) :
    dispatchByte b s = .next (s.withEngine (beginFrame s.eng)) := by
  have hb : b = s.cfg.startByte := by
    simp only [restartsFrame, Bool.and_eq_true, beq_iff_eq] at h
    exact h.2
  rw [dispatchByte, if_pos h]
  simp [transition, idleByte, hb, beginFrame]

/-- What one received byte can do, when it answers a state: one of the transitions of R101 to R108. -/
theorem dispatchByte_cases {b : Byte} (h : dispatchByte b s = .next t) :
    t = s.withEngine (beginFrame s.eng) ∨
    (s.eng.st = .idle ∧ ∃ k, t = s.emit [.ackReceived k]) ∨
    (s.eng.st = .idle ∧ t = s) ∨
    (s.eng.st = .readCommand ∧ t = s.withEngine { s.eng with msgCmd := b, st := .readLength }) ∨
    (s.eng.st = .readLength ∧ s.eng.cap.toNat < b.toNat ∧
      t = (s.withEngine { s.eng with msgLen := b, st := .idle }).emit [nakEvent s]) ∨
    (s.eng.st = .readLength ∧ b = 0 ∧ t = s.withEngine { s.eng with msgLen := b, st := .readChecksum }) ∨
    (s.eng.st = .readLength ∧ b ≠ 0 ∧ b.toNat ≤ s.eng.cap.toNat ∧
      t = s.withEngine { s.eng with msgLen := b, st := .readData }) ∨
    (s.eng.st = .readData ∧ s.eng.rxCount.toNat < s.eng.cap.toNat ∧
      t = s.withEngine { s.eng with
        payload := s.eng.payload.put s.eng.rxCount.toNat b, rxCount := s.eng.rxCount + 1,
        st := if s.eng.rxCount + 1 = s.eng.msgLen then .readChecksum else s.eng.st }) ∨
    (s.eng.st = .readChecksum ∧ s.eng.crcCount = 0 ∧
      t = s.withEngine { s.eng with rxCrc := withLowByte s.eng.rxCrc b, crcCount := 1 }) ∨
    (s.eng.st = .readChecksum ∧ s.eng.crcCount ≠ 0 ∧ s.eng.msgLen.toNat ≤ s.eng.cap.toNat ∧
      t = (s.withEngine (afterCrcHi s.eng b)).emit
        (if withHighByte s.eng.rxCrc b = crc16 (receivedData s.eng) then
          [.messageDecoded s.eng.msgCmd s.eng.msgLen (receivedData s.eng), ackEvent s]
         else [nakEvent s])) := by
  cases hr : restartsFrame s b with
  | true =>
    rw [dispatchByte_of_restart hr, next_inj] at h
    exact .inl h.symm
  | false =>
    rw [dispatchByte_of_no_restart hr, transition] at h
    cases hst : s.eng.st with
    | idle =>
      simp only [hst] at h
      rcases idleByte_cases b s with ⟨-, e⟩ | ⟨-, -, e⟩ | ⟨-, -, -, e⟩ | ⟨-, -, -, e⟩ <;> rw [e, next_inj] at h
      · exact .inl h.symm
      · exact .inr (.inl ⟨rfl, _, h.symm⟩)
      · exact .inr (.inl ⟨rfl, _, h.symm⟩)
      · exact .inr (.inr (.inl ⟨rfl, h.symm⟩))
    | readCommand =>
      simp only [hst] at h
      rw [readCommand, next_inj] at h
      exact .inr (.inr (.inr (.inl ⟨rfl, h.symm⟩)))
    | readLength =>
      simp only [hst] at h
      rcases readLength_cases b s with ⟨h1, e⟩ | ⟨h1, e⟩ | ⟨h1, h2, e⟩ <;> rw [e, next_inj] at h
      · exact .inr (.inr (.inr (.inr (.inl ⟨rfl, h1, h.symm⟩))))
      · exact .inr (.inr (.inr (.inr (.inr (.inl ⟨rfl, h1, h.symm⟩)))))
      · exact .inr (.inr (.inr (.inr (.inr (.inr (.inl ⟨rfl, h1, h2, h.symm⟩))))))
    | readData =>
      simp only [hst] at h
      have hb := readData_eq_next h
      rw [readData_ok hb, next_inj] at h
      refine .inr (.inr (.inr (.inr (.inr (.inr (.inr (.inl ⟨rfl, hb, ?_⟩)))))))
      rw [← h, hst]
    | readChecksum =>
      simp only [hst] at h
      split at h
      · next hc =>
        rw [readCrcLo, next_inj] at h
        refine .inr (.inr (.inr (.inr (.inr (.inr (.inr (.inr (.inl ⟨rfl, hc, ?_⟩))))))))
        rw [← h]
      · next hc =>
        have hb := readCrcHi_eq_next h
        rw [readCrcHi_ok hb, next_inj] at h
        exact .inr (.inr (.inr (.inr (.inr (.inr (.inr (.inr (.inr ⟨rfl, hc, hb, h.symm⟩))))))))

end Sys2Proof.Machine
end

