-- ==== Sys2Proof/Laws/PerInstr.lean ====
section
/-! SUPPORT. Facts about every operation as syntax, one lemma per constructor. -/

/-- The first byte of the operation's transaction passes the checks of 30_encoding.md R69: a defined OP, RSV = 0, and V
set only for DISPATCH. -/
def Sys2Proof.Laws.HeaderByte.Statement (i : Sys2Proof.Instr) : Prop :=
  ∃ h bs, Sys2Proof.encode i = h :: bs ∧ (Sys2Proof.opField h).toNat < 8 ∧ Sys2Proof.rsvField h = 0 ∧
    (Sys2Proof.vBit h = true → Sys2Proof.opField h = 1)

namespace Sys2Proof.Laws.HeaderByte

theorem init (c : Nat) : Statement (.init c) := ⟨_, _, rfl, by decide, by decide, by decide⟩

theorem dispatch (input : Option Byte) : Statement (.dispatch input) := by
  cases input <;> exact ⟨_, _, rfl, by decide, by decide, by decide⟩

theorem send (cmd : Byte) (data : List Byte) : Statement (.send cmd data) := ⟨_, _, rfl, by decide, by decide, by decide⟩

theorem sendAck : Statement .sendAck := ⟨_, _, rfl, by decide, by decide, by decide⟩

theorem sendNak : Statement .sendNak := ⟨_, _, rfl, by decide, by decide, by decide⟩

theorem checksum (data : List Byte) : Statement (.checksum data) := ⟨_, _, rfl, by decide, by decide, by decide⟩

theorem abort : Statement .abort := ⟨_, _, rfl, by decide, by decide, by decide⟩

theorem setCallbacks (mask : CallbackSlots) : Statement (.setCallbacks mask) :=
  ⟨_, _, rfl, by decide, by decide, by decide⟩

end Sys2Proof.Laws.HeaderByte
end

