-- ==== Sys2Proof/Laws/Step.lean ====
section
/-! SUPPORT. What one step can do, said once. -/

namespace Sys2Proof.Machine

variable {s t : State}

theorem takeTransaction_nil (h : s.port = []) : takeTransaction s = .nothing := by simp [takeTransaction, h]

theorem takeTransaction_operation {bs tail : List Byte} {rest : List Transaction} {i : Instr}
    (hp : s.port = { bytes := bs, overlapping := false } :: rest) (hm : validConfig s.cfg)
    (hd : decode bs = .ok (i, tail)) : takeTransaction s = .operation i (s.withPort (requeue tail rest)) := by
  simp only [takeTransaction, hp]
  rw [if_neg (not_not.2 hm)]
  simp [hd]

theorem takeTransaction_undecodable {bs : List Byte} {rest : List Transaction} {e : DecodeError}
    (hp : s.port = { bytes := bs, overlapping := false } :: rest) (hm : validConfig s.cfg)
    (hd : decode bs = .error e) : takeTransaction s = .refused (s.withPort rest) .reservedEncoding := by
  simp only [takeTransaction, hp]
  rw [if_neg (not_not.2 hm)]
  simp [hd]

theorem takeTransaction_invalidConfig {x : Transaction} {rest : List Transaction} (hp : s.port = x :: rest)
    (hm : ¬ validConfig s.cfg) : takeTransaction s = .refused (s.withPort rest) .configInvalid := by
  simp only [takeTransaction, hp]
  rw [if_pos hm]

theorem takeTransaction_overlapping {bs : List Byte} {rest : List Transaction}
    (hp : s.port = { bytes := bs, overlapping := true } :: rest) (hm : validConfig s.cfg) :
    takeTransaction s = .refused (s.withPort rest) .hostReentrant := by
  simp only [takeTransaction, hp]
  rw [if_neg (not_not.2 hm)]
  rfl

/-- What taking a transaction can do: the state is the old one with another port. -/
theorem takeTransaction_cases (s : State) :
    takeTransaction s = .nothing ∨
    (∃ p r, takeTransaction s = .refused (s.withPort p) r) ∨
    (∃ p i, takeTransaction s = .operation i (s.withPort p)) := by
  unfold takeTransaction
  split
  · exact .inl rfl
  · split
    · exact .inr (.inl ⟨_, _, rfl⟩)
    · split
      · exact .inr (.inl ⟨_, _, rfl⟩)
      · split
        · exact .inr (.inl ⟨_, _, rfl⟩)
        · exact .inr (.inr ⟨_, _, rfl⟩)

/-- What settling an outcome can answer: the operation's own state, or the state before it with one record more. -/
theorem settle_cases {i : Instr} {r : Result} (h : settle i s r = .next t) : r = .next t ∨ ∃ x, t = s.note x := by
  unfold settle at h
  split at h
  · exact .inl h
  · rw [next_inj] at h; exact .inr ⟨_, h.symm⟩
  · cases h
  · rw [next_inj] at h; exact .inr ⟨_, h.symm⟩

/-- What a step can do, when it answers a state: nothing, record a fault or a refusal, or run an operation. Only the
port differs in what the operation or the record starts from. -/
theorem step_cases (h : step s = .next t) :
    t = s ∨ (∃ p x, t = (s.withPort p).note x) ∨ (∃ p i, exec i (s.withPort p) = .next t) := by
  rcases takeTransaction_cases s with e | ⟨p, r, e⟩ | ⟨p, i, e⟩ <;> simp only [step, e] at h
  · rw [next_inj] at h; exact .inl h.symm
  · rw [next_inj] at h; exact .inr (.inl ⟨p, _, h.symm⟩)
  · rcases settle_cases h with h | ⟨x, rfl⟩
    · exact .inr (.inr ⟨p, i, h⟩)
    · exact .inr (.inl ⟨p, x, rfl⟩)

end Sys2Proof.Machine
end

