-- ==== Sys2Proof/Tests/Slice0.lean ====
section
/-! SUPPORT. The model's own tests. Expected values are the spec's: the vectors of 95_test_vectors.md (named in each
docstring) and the tables of 30_encoding.md and 40_checksum.md. The witnesses show, for each statement with hypotheses, a
concrete state and operands that meet them together. -/

namespace Sys2Proof.Tests

open Sys2Proof Sys2Proof.Machine

/-! ### States -/

/-- The vectors' test configuration TC (95_test_vectors.md section 0). -/
def tc : Config := { startByte := 0xC0, ackByte := 0xC1, nakByte := 0xC2, midframeResync := false }

/-- Another configuration with distinct markers: the vectors must hold with their markers bound to other values too. -/
def other : Config := { startByte := 0x02, ackByte := 0x06, nakByte := 0x15, midframeResync := false }

/-- A live instance of capacity `cap` in parser state `st`, under configuration `k`. -/
def inst (k : Config) (cap : Byte) (st : ParserState) : State :=
  { State.resetWith k with eng := { initialized cap with st := st } }

/-- One of two data bytes received. -/
def midData : State :=
  { inst tc 4 .readData with
    eng := { initialized 4 with st := .readData, msgCmd := 2, msgLen := 2, rxCount := 1, payload := [(0, 0x10)] } }

/-- V-STEP-17's state: CRC_HI is the next byte. -/
def lastByte : State :=
  { inst tc 4 .readChecksum with
    eng := { initialized 4 with st := .readChecksum, msgCmd := 2, msgLen := 2, rxCount := 2, crcCount := 1, rxCrc := 0x001E,
                                payload := [(0, 0x10), (1, 0x20)] } }

/-- The state with one transaction issued. -/
def issued (s : State) (bs : List Byte) : State := s.withPort [{ bytes := bs, overlapping := false }]

/-- The state an operation answers, if it answers one. -/
def nextOf : Result → Option State
  | .next t => some t
  | .fault _ => none
  | .refused _ => none

/-- The fault or refusal an operation ends in, if it does. -/
def stopOf : Result → Option (Fault ⊕ Refusal)
  | .next _ => none
  | .fault f => some (.inl f)
  | .refused r => some (.inr r)

/-! ### WellFormed: an ill-formed term for each check -/

theorem test_wellFormed_refuses_capacity_256 : (Instr.init 256).wellFormed = false := by decide

theorem test_wellFormed_refuses_long_send (cmd : Byte) : (Instr.send cmd (List.replicate 65536 0)).wellFormed = false := by
  rw [Bool.eq_false_iff, ne_eq, wellFormed_send, List.length_replicate]
  decide

theorem test_wellFormed_refuses_long_checksum : (Instr.checksum (List.replicate 65536 0)).wellFormed = false := by
  rw [Bool.eq_false_iff, ne_eq, wellFormed_checksum, List.length_replicate]
  decide

/-! ### Decoding: words written out from R67's table (V-ENCD-1 to V-ENCD-12) -/

theorem test_decode_init : decode [0x00, 0x0C] = .ok (.init 12, []) := by decide

theorem test_decode_dispatch_none : decode [0x01] = .ok (.dispatch none, []) := by decide

theorem test_decode_dispatch_byte : decode [0x11, 0xC0] = .ok (.dispatch (some 0xC0), []) := by decide

theorem test_decode_send :
    decode [0x02, 0x01, 0x03, 0x00, 0xAA, 0xBB, 0xCC] = .ok (.send 0x01 [0xAA, 0xBB, 0xCC], []) := by decide

/-- V-ENCD-5: the count is little-endian, 0x012C = 300. -/
theorem test_count_is_little_endian : (half 0x2C 0x01).toNat = 300 := by decide

theorem test_decode_send_ack : decode [0x03] = .ok (.sendAck, []) := by decide

theorem test_decode_send_nak : decode [0x04] = .ok (.sendNak, []) := by decide

theorem test_decode_checksum_empty : decode [0x05, 0x00, 0x00] = .ok (.checksum [], []) := by decide

theorem test_decode_abort : decode [0x06] = .ok (.abort, []) := by decide

theorem test_decode_set_callbacks_all : decode [0x07, 0x0F] = .ok (.setCallbacks ⟨true, true, true, true⟩, []) := by decide

/-- Each mask bit selects its own slot: out, in, msg, ack (R68). -/
theorem test_decode_set_callbacks_bits :
    [0x01, 0x02, 0x04, 0x08].map slotsOfMask =
      [⟨true, false, false, false⟩, ⟨false, true, false, false⟩, ⟨false, false, true, false⟩,
       ⟨false, false, false, true⟩] := by decide

/-- V-ENCD-9 to V-ENCD-12 and V-INS-11. -/
theorem test_decode_rejects_by_name :
    decode [0x08] = .error .reservedOp ∧ decode [0x0F] = .error .reservedOp ∧ decode [0x18] = .error .reservedOp ∧
    decode [0x20] = .error .reservedBits ∧ decode [0x12] = .error .strayV ∧
    decode [0x02, 0x01, 0x03, 0x00, 0xAA] = .error .tooShort ∧ decode [0x07, 0x10] = .error .reservedMask ∧
    decode [] = .error .tooShort := by decide

/-- The opcode table's words, operands zero, numbered as the table numbers them. -/
theorem test_decodeTableWord :
    [0x00, 0x01, 0x02, 0x03, 0x04, 0x05, 0x06, 0x07].map (decodeTableWord 8) =
      [some (.init 0), some (.dispatch none), some (.send 0 []), some .sendAck, some .sendNak, some (.checksum []),
       some .abort, some (.setCallbacks ⟨false, false, false, false⟩)] := by decide

/-- A later byte's bits count on from the first's: 0x0C in bits 15:8 is INIT's operand. -/
theorem test_decodeTableWord_operand :
    decodeTableWord 16 0x0C00 = some (.init 12) ∧ decodeTableWord 16 0xC011 = some (.dispatch (some 0xC0)) := by decide

/-! ### The checksum (W1, V-CRC-3, V-CRC-11, the printed table) -/

theorem test_crc16_conformance : crc16 [0x31, 0x32, 0x33, 0x34, 0x35, 0x36, 0x37, 0x38, 0x39] = 0x29B1 := by decide +kernel

theorem test_crc16_short : crc16 [0x00] = 0xE1F0 ∧ crc16 [0xFF] = 0xFF00 ∧ crc16 [0xAA, 0xBB, 0xCC] = 0x6CF6 := by
  decide +kernel

/-- R85's example of truncation, and R81's spot checks. -/
theorem test_crcStep_truncates : crcStep 0x8000 0x00 = 0x9188 ∧ crcStep 0 0x01 = 0x1021 ∧ crcStep 0 0xFF = 0x1EF0 := by
  decide +kernel

/-! ### One step of each operation -/

/-- V-INS-1. -/
theorem test_init : nextOf (exec (.init 12) State.reset) = some { State.reset with eng := initialized 12 } := by decide +kernel

/-- V-INS-2, V-INS-5, and the abstract operand above 255 (R130). -/
theorem test_init_capacity_invalid :
    [0, 256].map (fun c => stopOf (exec (.init c) (inst tc 4 .readData))) =
      [some (.inl .capacityInvalid), some (.inl .capacityInvalid)] := by decide +kernel

/-- V-ENC-4, under two configurations. -/
theorem test_send_truncates :
    [tc, other].map (fun k => (nextOf (exec (.send 0x07 [1, 2, 3, 4, 5]) (inst k 3 .readData))).map (·.events)) =
      [tc, other].map (fun k => some ([k.startByte, 0x07, 0x03, 0x01, 0x02, 0x03, 0xAD, 0xAD].map .outByte)) := by
  decide +kernel

/-- V-ENC-2: no data. -/
theorem test_send_empty :
    (nextOf (exec (.send 0x09 []) (inst tc 1 .idle))).map (·.events) =
      some ([0xC0, 0x09, 0x00, 0xFF, 0xFF].map .outByte) := by decide +kernel

/-- V-ENC-9, V-ENC-10. -/
theorem test_send_ack : (nextOf (exec .sendAck (inst other 4 .readData))).map (·.events) = some [.outByte 0x06] := by
  decide +kernel

theorem test_send_nak : (nextOf (exec .sendNak (inst other 4 .readData))).map (·.events) = some [.outByte 0x15] := by
  decide +kernel

/-- V-CK-3: marker values are data to CHECKSUM. -/
theorem test_checksum :
    (nextOf (exec (.checksum [0xC0, 0xC1, 0xC2]) (inst tc 4 .readData))).map (fun t => (t.eng.st, t.events)) =
      some (.readData, [.checksumResult 0x3600]) := by decide +kernel

/-- V-INS-6. -/
theorem test_abort : (nextOf (exec .abort midData)).map (·.eng) = some { midData.eng with st := .idle } := by decide +kernel

/-- V-INS-9. -/
theorem test_set_callbacks :
    (nextOf (exec (.setCallbacks ⟨true, false, false, true⟩) midData)).map (fun t => (t.eng, t.bindings)) =
      some (midData.eng, ⟨true, false, false, true⟩) := by decide +kernel

/-- V-STEP-17: a match delivers, then acknowledges. -/
theorem test_dispatch_match :
    (nextOf (exec (.dispatch (some 0x3A)) lastByte)).map (fun t => (t.eng.st, t.eng.rxCrc, t.events)) =
      some (.idle, 0x3A1E, [.messageDecoded 2 2 [0x10, 0x20], .outByte 0xC1]) := by decide +kernel

/-- V-STEP-19: a mismatch answers NAK alone. -/
theorem test_dispatch_mismatch :
    (nextOf (exec (.dispatch (some 0x3B)) lastByte)).map (fun t => (t.eng.st, t.eng.rxCrc, t.events)) =
      some (.idle, 0x3B1E, [.outByte 0xC2]) := by decide +kernel

/-! ### The transitions, as operations of their own (V-STEP-1, -2, -3, -5, -8, -9, -12, -13, -14, -15, -16) -/

theorem test_idleByte_start : (nextOf (idleByte 0xC0 { midData with eng := { midData.eng with st := .idle } })).map (·.eng) =
    some { initialized 4 with st := .readCommand } := by decide +kernel

theorem test_idleByte_markers : [0x06, 0x15, 0x7F].map (fun b => (nextOf (idleByte b (inst other 4 .idle))).map (·.events)) =
    [some [.ackReceived .positive], some [.ackReceived .negative], some []] := by decide +kernel

theorem test_readLength_bound :
    [0x04, 0x05, 0x00].map (fun b => (nextOf (readLength b (inst tc 4 .readLength))).map
      (fun t => (t.eng.st, t.eng.msgLen, t.events))) =
      [some (.readData, 4, []), some (.idle, 5, [.outByte 0xC2]), some (.readChecksum, 0, [])] := by decide +kernel

theorem test_readData_last_byte : (nextOf (readData 0xC1 midData)).map (fun t => (t.eng.st, t.eng.payload, t.eng.rxCount, t.events)) =
    some (.readChecksum, [(0, 0x10), (1, 0xC1)], 2, []) := by decide +kernel

theorem test_readCrcLo : (nextOf (readCrcLo 0xF6 { midData with eng := { midData.eng with rxCrc := 0xABCD } })).map (·.eng.rxCrc) =
    some 0xABF6 := by decide +kernel

/-! ### The payload buffer -/

/-- Writing 0 removes the entry: equal buffers are equal data. -/
theorem test_memory_put_zero : Memory.put [(0, 0x10), (1, 0x20)] 0 0 = [(1, 0x20)] := by decide

theorem test_reset_memory_wf : State.reset.eng.payload.wf := by decide

/-! ### The step: what the host port does before an operation -/

/-- V-INS-1 through the port. -/
theorem test_step_runs_the_word : step (State.reset.withFetchWord 16 0x0C00) = .next { State.reset with eng := initialized 12 } := rfl

/-- V-ENCD-13, V-INS-8, V-INS-2, before INIT: the first failing check is recorded and the run goes on (program P5). -/
theorem test_step_records :
    [[0x18], [0x06], [0x00, 0x00]].map (fun bs => (nextOf (step (issued State.reset bs))).map (·.record)) =
      [some [.refusal .reservedEncoding], some [.refusal .notInitialized],
       some [.fault .capacityInvalid (.init 0)]] := by decide +kernel

/-- V-INS-14: equal markers. -/
theorem test_step_config_invalid :
    (nextOf (step (issued (inst { tc with ackByte := 0xC0 } 4 .idle) [0x03]))).map (fun t => (t.record, t.events)) =
      some ([.refusal .configInvalid], []) := by decide +kernel

/-- R162: P_MIDFRAME_RESYNC = true, here for INIT 4. -/
theorem test_step_midframe_config_invalid :
    (nextOf (step (issued (State.resetWith { tc with midframeResync := true }) [0x00, 0x04]))).map
      (fun t => (t.record, t.eng.live)) = some ([.refusal .configInvalid], false) := by decide +kernel

/-- V-INS-13: an operation issued while another is running. -/
theorem test_step_host_reentrant :
    (nextOf (step ((inst tc 4 .idle).withPort [⟨[0x03], true⟩]))).map (fun t => (t.record, t.events)) =
      some ([.refusal .hostReentrant], []) := by decide +kernel

/-- Log 4: the bytes after a transaction are the next one (the encodings of 95_test_vectors.md section 7). -/
theorem test_step_keeps_the_rest :
    (nextOf (step (issued State.reset [0x00, 0x0C, 0x03]))).map (·.port) = some [⟨[0x03], false⟩] := by decide +kernel

/-! ### The assembler (R71, R72) -/

theorem test_assemble_send : assembleLine tc "SEND 0x01, [0xAA, 187, START] ; a frame".toList =
    some [.send 0x01 [0xAA, 0xBB, 0xC0]] := by decide +kernel

/-- The characters 123 and 125 are the curly brackets. -/
theorem test_assemble_set_callbacks :
    assembleLine tc ("SET_CALLBACKS ".toList ++ [Char.ofNat 123] ++ "out, ack".toList ++ [Char.ofNat 125]) =
      some [.setCallbacks ⟨true, false, false, true⟩] := by decide +kernel

theorem test_assemble_program :
    assemble other ["INIT 4".toList, "".toList, "DISPATCH none".toList, "DISPATCH NAK ; nak".toList, "ABORT".toList] =
      some [.init 4, .dispatch none, .dispatch (some 0x15), .abort] := by decide +kernel

/-- What is not in the syntax does not assemble. -/
theorem test_assemble_rejects :
    ["SEND 256, []", "NOP", "INIT", "FEED [1,]"].map (fun l => assembleLine tc l.toList) = [none, none, none, none] := by
  decide +kernel

/-! ### Witnesses: the hypotheses of each statement hold together somewhere -/

theorem witness_DecodeOfEncodeGivesTheOperation :
    (Instr.init 255).wellFormed = true ∧ (Instr.send 0 []).wellFormed = true := by decide

theorem witness_EncodeOfDecodeGivesTheBytes : decode [0x00, 0xFF, 0x03] = .ok (.init 255, [0x03]) := by decide

theorem witness_ReservedTransactionsAreRefused :
    illegalTransaction [0x07, 0x10] ∧ illegalTransaction [0x05, 0x01, 0x00] ∧ validConfig (issued State.reset [0x07, 0x10]).cfg ∧
      (issued State.reset [0x07, 0x10]).port = { bytes := [0x07, 0x10], overlapping := false } :: [] :=
  ⟨.inr (.inr (.inr (.inl ⟨rfl, _, _, rfl, by decide⟩))),
   .inr (.inr (.inr (.inr (.inr (.inr ⟨rfl, .inr ⟨_, _, _, rfl, by decide⟩⟩))))), by decide, rfl⟩

theorem witness_StepRunsTheDecodedOperation_next :
    (issued midData [0x06, 0x01]).port = { bytes := [0x06, 0x01], overlapping := false } :: [] ∧
      validConfig (issued midData [0x06, 0x01]).cfg ∧ decode [0x06, 0x01] = .ok (.abort, [0x01]) ∧
      (nextOf (exec .abort (issued midData [0x01]))).isSome = true := by decide +kernel

theorem witness_StepRunsTheDecodedOperation_stops :
    decode [0x00, 0x00] = .ok (.init 0, []) ∧ stopOf (exec (.init 0) State.reset) = some (.inl .capacityInvalid) ∧
      decode [0x06] = .ok (.abort, []) ∧ stopOf (exec .abort State.reset) = some (.inr .notInitialized) ∧
      decode [0x11, 0x00] = .ok (.dispatch (some 0), []) ∧
      stopOf (exec (.dispatch (some 0)) { midData with eng := { midData.eng with rxCount := 4 } }) =
        some (.inl .payloadIndexOutOfRange) := by decide +kernel

theorem witness_NothingIssuedHoldsTheState : midData.port = [] := rfl

theorem witness_EqualMarkersAreRefused :
    (issued (inst { tc with nakByte := 0xC1 } 4 .idle) [0x03]).port = [⟨[0x03], false⟩] ∧
      (inst { tc with nakByte := 0xC1 } 4 .idle).cfg.ackByte = (inst { tc with nakByte := 0xC1 } 4 .idle).cfg.nakByte :=
  ⟨rfl, rfl⟩

theorem witness_OverlappingOperationIsRefused :
    (midData.withPort [⟨[0x03], true⟩]).port = { bytes := [0x03], overlapping := true } :: [] ∧ validConfig midData.cfg := by
  decide

theorem witness_ChecksAreMadeInOrder :
    (issued State.reset [0x06]).port = { bytes := [0x06], overlapping := false } :: [] ∧
      ¬ validConfig { tc with ackByte := 0xC0 } ∧ ¬ validConfig { tc with midframeResync := true } ∧
      validConfig State.reset.cfg ∧
      decode [0x18] = .error .reservedOp ∧ decode [0x06] = .ok (.abort, []) ∧ State.reset.eng.live = false ∧
      decode [0x00, 0x00] = .ok (.init 0, []) := by decide

theorem witness_BeforeInitEveryOtherOperationIsRefused : State.reset.eng.live = false ∧ ∀ c, Instr.sendAck ≠ .init c :=
  ⟨rfl, fun _ => by simp⟩

theorem witness_CapacityInvalidIsTheOnlyFault : midData.eng.invariant ∧ lastByte.eng.invariant :=
  ⟨by decide, by decide⟩

theorem witness_PayloadAccessOutsideTheBufferFaults :
    (let s := { midData with eng := { midData.eng with rxCount := 4 } }
     s.eng.live = true ∧ s.cfg.midframeResync = false ∧ s.eng.st = .readData ∧ s.eng.cap.toNat ≤ s.eng.rxCount.toNat) ∧
    (let s := { lastByte with eng := { lastByte.eng with msgLen := 5 } }
     s.eng.live = true ∧ s.cfg.midframeResync = false ∧ s.eng.st = .readChecksum ∧ s.eng.crcCount ≠ 0 ∧
      s.eng.cap.toNat < s.eng.msgLen.toNat) := by decide

theorem witness_InitSetsEveryRegister : (1 ≤ 1 ∧ 1 ≤ 255) ∧ (1 ≤ 255 ∧ 255 ≤ 255) := by decide

theorem witness_AbortReturnsToIdle :
    midData.eng.live = true ∧ (inst tc 4 .idle).eng.st = .idle ∧ State.reset.eng.live = false := by decide

theorem witness_SetCallbacksReplacesTheSelectedSlots : midData.eng.live = true ∧ State.reset.eng.live = false ∧
    (0x10 : Byte).extractLsb' 4 4 ≠ 0 := by decide

theorem witness_SendEmitsOneFrame : midData.eng.live = true ∧ State.reset.eng.live = false ∧
    [1, 2, 3, 4] = ([1, 2, 3, 4, 5] : List Byte).take midData.eng.cap.toNat := by decide

theorem witness_FrameBytesLayout : (1 ≤ 3 ∧ 3 ≤ 255 ∧ 3 = min ([1, 2, 3, 4, 5] : List Byte).length 3) ∧
    (1 ≤ 255 ∧ 255 ≤ 255 ∧ 0 = min ([] : List Byte).length 255) := by decide

theorem witness_TruncationIsSilent : midData.eng.cap.toNat < ([1, 2, 3, 4, 5] : List Byte).length := by decide

theorem witness_SendAckAndSendNakEmitTheirMarker : lastByte.eng.live = true ∧ State.reset.eng.live = false := by decide

theorem witness_SendExtendsTheTransmittedStream : (nextOf (exec (.send 1 [2]) midData)).isSome = true := by decide +kernel

theorem witness_ChecksumReportsTheCrc : midData.eng.live = true ∧ State.reset.eng.live = false := by decide

theorem witness_CrcLaws : decode [0x05, 0x00, 0x00] = .ok (.checksum [], []) := by decide

theorem witness_NoByteChangesNothing : midData.eng.live = true ∧ State.reset.eng.live = false := by decide

theorem witness_StartMarkerBeginsAFrame : (inst tc 4 .idle).eng.live = true ∧ (inst tc 4 .idle).eng.st = .idle := by decide

theorem witness_OtherBytesInIdle :
    (inst tc 4 .idle).eng.live = true ∧ (inst tc 4 .idle).eng.st = .idle ∧ tc.ackByte ≠ tc.startByte ∧
      tc.nakByte ≠ tc.startByte ∧ tc.nakByte ≠ tc.ackByte ∧ 0xFF ≠ tc.startByte ∧ 0xFF ≠ tc.ackByte ∧ 0xFF ≠ tc.nakByte := by
  decide

theorem witness_CommandByteIsStored :
    let s := inst tc 4 .readCommand
    s.eng.live = true ∧ s.cfg.midframeResync = false ∧ s.eng.st = .readCommand := by decide

/-- At the boundary: `b = cap` and `b = cap + 1`. -/
theorem witness_LengthByteIsBoundedByTheCapacity :
    let s := inst tc 4 .readLength
    s.eng.live = true ∧ s.cfg.midframeResync = false ∧ s.eng.st = .readLength ∧ s.eng.cap.toNat < (5 : Byte).toNat ∧
      (4 : Byte) ≠ 0 ∧ (4 : Byte).toNat ≤ s.eng.cap.toNat := by decide

theorem witness_DataByteIsStored :
    midData.eng.live = true ∧ midData.cfg.midframeResync = false ∧ midData.eng.st = .readData ∧ midData.eng.payload.wf ∧
      midData.eng.rxCount.toNat < midData.eng.msgLen.toNat ∧ midData.eng.msgLen.toNat ≤ midData.eng.cap.toNat := by decide

theorem witness_FirstChecksumByteIsTheLowByte :
    let s := inst tc 4 .readChecksum
    s.eng.live = true ∧ s.cfg.midframeResync = false ∧ s.eng.st = .readChecksum ∧ s.eng.crcCount = 0 := by decide

theorem witness_SecondChecksumByteVerifiesTheFrame :
    lastByte.eng.live = true ∧ lastByte.cfg.midframeResync = false ∧ lastByte.eng.st = .readChecksum ∧
      lastByte.eng.crcCount ≠ 0 ∧ lastByte.eng.msgLen.toNat ≤ lastByte.eng.cap.toNat ∧
      ([0x10, 0x20] : List Byte).length = lastByte.eng.msgLen.toNat ∧
      (lastByte.eng.memRead 0 = .ok 0x10 ∧ lastByte.eng.memRead 1 = .ok 0x20) ∧
      (lastByte.eng.rxCrc &&& 0x00FF) ||| ((0x3A : Byte).setWidth 16 <<< 8) = crc16 [0x10, 0x20] ∧
      (lastByte.eng.rxCrc &&& 0x00FF) ||| ((0x3B : Byte).setWidth 16 <<< 8) ≠ crc16 [0x10, 0x20] := by decide +kernel

theorem witness_MidframeRestartParameter :
    let s := { midData with cfg := { tc with midframeResync := true } }
    s.eng.live = true ∧ s.eng.st ≠ .idle ∧ s.cfg.midframeResync = true ∧ 0x20 ≠ s.cfg.startByte ∧
      (nextOf (exec (.dispatch (some 0x20)) midData)).isSome = true ∧
      stopOf (exec (.dispatch (some 0x20)) { midData with eng := { midData.eng with rxCount := 4 } }) =
        some (.inl .payloadIndexOutOfRange) := by decide +kernel

theorem witness_MarkersInsideAFrameAreData :
    midData.eng.invariant ∧ midData.eng.live = true ∧ midData.cfg.midframeResync = false ∧ midData.eng.st ≠ .idle ∧
      other.midframeResync = false := by decide

theorem witness_NonReceiveOperationsWriteNoRegister :
    (nextOf (exec .sendAck midData)).isSome = true ∧ (nextOf (exec .abort midData)).isSome = true := by decide +kernel

theorem witness_OnlyTheNamedOperationsWrite :
    (nextOf (exec (.dispatch (some 0x20)) midData)).isSome = true ∧ (nextOf (exec (.init 1) midData)).isSome = true := by
  decide +kernel

theorem witness_DispatchEmitsAtMostTwoEvents :
    (nextOf (exec (.dispatch (some 0x3A)) lastByte)).map (·.events.length) = some 2 := by decide +kernel

theorem witness_DeliveredMessagesAreValid :
    (nextOf (exec (.dispatch (some 0x3A)) lastByte)).map (·.events) =
      some (lastByte.events ++ [.messageDecoded 2 2 [0x10, 0x20], .outByte 0xC1]) := by decide +kernel

theorem witness_DeliveryFollowsTheBindings :
    (nextOf (exec .sendAck midData)).isSome = true ∧
      midData.bindings = { out := false, inp := false, msg := false, ack := false } ∧ ∀ data, Instr.sendAck ≠ .checksum data :=
  ⟨by decide +kernel, rfl, fun _ => by simp⟩

theorem witness_NothingRecordedIsEverCleared :
    Host.Core.run Sys2Proof.core 1 (State.reset.withFetchWord 16 0x0C00) =
      .next ({ State.reset with eng := initialized 12 } : State) := rfl

theorem witness_IdempotentOperations :
    (nextOf (exec .abort midData)).isSome = true ∧ (nextOf (exec (.dispatch none) midData)).isSome = true ∧
      (nextOf (exec (.setCallbacks ⟨true, true, false, false⟩) midData)).isSome = true := by decide +kernel

theorem witness_StepKeepsTheInvariant :
    (issued midData [0x11, 0x20]).eng.invariant ∧ (nextOf (step (issued midData [0x11, 0x20]))).isSome = true := by
  decide +kernel

theorem witness_NoRunEverStops : lastByte.eng.invariant := by decide

/-- The boundary `len(p) = cap`, and the empty payload. -/
theorem witness_RoundTripDeliversTheMessage :
    receiving (inst tc 4 .idle) ∧ ([0xC0, 0xC1, 0xC2, 0x00] : List Byte).length ≤ (inst tc 4 .idle).eng.cap.toNat ∧
      ([] : List Byte).length ≤ (inst tc 4 .idle).eng.cap.toNat := ⟨⟨rfl, rfl, rfl⟩, by decide, by decide⟩

/-- The first data byte and CRC_HI, bit 7. -/
theorem witness_SingleBitCorruptionIsRejected :
    receiving (inst tc 4 .idle) ∧ ([0xAA] : List Byte).length ≤ (inst tc 4 .idle).eng.cap.toNat ∧
      (frameBytes tc 1 [0xAA] 4)[3]? = some 0xAA ∧ (frameBytes tc 1 [0xAA] 4)[5]? = some 0xF5 ∧ 7 < 8 :=
  ⟨⟨rfl, rfl, rfl⟩, by decide, by decide +kernel, by decide +kernel, by decide⟩

theorem witness_LengthByteFixesTheFrameLength :
    receiving (inst tc 4 .idle) ∧ (4 : Byte).toNat ≤ (inst tc 4 .idle).eng.cap.toNat ∧
      ([1, 2, 3, 4, 5, 6] : List Byte).length = (4 : Byte).toNat + 2 ∧ (inst tc 4 .idle).eng.cap.toNat < (5 : Byte).toNat :=
  ⟨⟨rfl, rfl, rfl⟩, by decide, by decide, by decide⟩

theorem witness_FrameTooLongForThePeerIsNaked :
    receiving (inst tc 4 .idle) ∧ 5 ≤ 255 ∧ (inst tc 4 .idle).eng.cap.toNat < min ([1, 2, 3, 4, 5] : List Byte).length 5 :=
  ⟨⟨rfl, rfl, rfl⟩, by decide, by decide⟩

theorem witness_NoiseBetweenFramesIsDiscarded :
    let s := inst tc 4 .idle
    s.eng.live = true ∧ s.eng.st = .idle ∧
      ∀ b ∈ ([0x00, 0xFF, 0x7F] : List Byte), b ≠ s.cfg.startByte ∧ b ≠ s.cfg.ackByte ∧ b ≠ s.cfg.nakByte := by decide

theorem witness_ParserReturnsToIdle :
    midData.eng.invariant ∧ midData.eng.live = true ∧ midData.cfg.midframeResync = false ∧
      ([1, 2, 3, 4, 5, 6, 7, 8] : List Byte).length = midData.eng.cap.toNat + 4 := by decide

theorem witness_SentFramesAreDeliveredAndAcknowledged :
    (inst other 4 .idle).eng.live = true ∧ receiving (inst other 3 .idle) ∧ (inst other 4 .idle).cfg = (inst other 3 .idle).cfg ∧
      markersDistinct (inst other 4 .idle).cfg ∧
      min ([1, 2, 3] : List Byte).length (inst other 4 .idle).eng.cap.toNat ≤ (inst other 3 .idle).eng.cap.toNat :=
  ⟨rfl, ⟨rfl, rfl, rfl⟩, rfl, by decide, by decide⟩

theorem witness_InstancesAreIndependent :
    let y : System := { instances := [issued State.reset [0x00, 0x04], issued midData [0x06]] }
    (0 : Nat) ≠ 1 ∧ ∃ z w : System, y.stepInstance 0 = .next z ∧ z.stepInstance 1 = .next w :=
  ⟨by decide, _, _, rfl, rfl⟩

theorem witness_MidframeResyncConfigurationIsRefused :
    (let s := issued { midData with cfg := { tc with midframeResync := true } } [0x03]
     s.port = { bytes := [0x03], overlapping := false } :: [] ∧ s.cfg.midframeResync = true) ∧
    (let s := issued midData [0x03]
     s.port = { bytes := [0x03], overlapping := false } :: [] ∧ markersDistinct s.cfg ∧ s.cfg.midframeResync = false ∧
       (nextOf (step s)).isSome = true) := by decide +kernel

end Sys2Proof.Tests
end

section
/-! SUPPORT. No run stops: the invariant of R35 rules out the payload accesses of R16 that would leave the buffer, every
operation keeps it, and every other outcome is recorded. With it, what such an access ends in, and what a step does with
a refused configuration (R12). -/

namespace Sys2Proof.Machine

variable {s t : State}

/-! ### Payload accesses outside the buffer (R16) -/

/-- `ReadData` outside the buffer: the model's own fault (log 12). -/
theorem readData_outside {b : Byte} (h : s.eng.cap.toNat ≤ s.eng.rxCount.toNat) :
    readData b s = .fault .payloadIndexOutOfRange := by
  have hw : s.eng.memWrite s.eng.rxCount.toNat b = .error .payloadIndexOutOfRange := memWrite_error.2 ⟨h, rfl⟩
  simp only [readData, hw]

/-- The second checksum byte of a message longer than the buffer: the model's own fault (log 12). -/
theorem readCrcHi_outside {b : Byte} (h : s.eng.cap.toNat < s.eng.msgLen.toNat) :
    readCrcHi b s = .fault .payloadIndexOutOfRange := by
  have hr : (afterCrcHi s.eng b).memReadRun 0 s.eng.msgLen.toNat = .error .payloadIndexOutOfRange :=
    memReadRun_outside (Nat.zero_le _) (by simpa [afterCrcHi] using h)
  simp only [afterCrcHi] at hr
  simp only [readCrcHi, hr]

/-- The transition of the parser state would touch a payload index outside the buffer. -/
def Engine.accessOutside (e : Engine) : Prop :=
  (e.st = .readData ∧ e.cap.toNat ≤ e.rxCount.toNat) ∨
  (e.st = .readChecksum ∧ e.crcCount ≠ 0 ∧ e.cap.toNat < e.msgLen.toNat)

/-- A transition that would leave the buffer ends in the model's own fault. -/
theorem transition_fault {b : Byte} (h : s.eng.accessOutside) : transition b s = .fault .payloadIndexOutOfRange := by
  rcases h with ⟨hst, hrx⟩ | ⟨hst, hcrc, hlen⟩
  · simp only [transition, hst, readData_outside hrx]
  · simp only [transition, hst, if_neg hcrc, readCrcHi_outside hlen]

/-- A transition that stays inside the buffer answers a next state. -/
theorem transition_answers {b : Byte} (h : ¬ s.eng.accessOutside) : ∃ t, transition b s = .next t := by
  unfold transition
  cases hst : s.eng.st with
  | idle => rcases idleByte_cases b s with ⟨-, e⟩ | ⟨-, -, e⟩ | ⟨-, -, -, e⟩ | ⟨-, -, -, e⟩ <;> exact ⟨_, e⟩
  | readCommand => exact ⟨_, rfl⟩
  | readLength => rcases readLength_cases b s with ⟨-, e⟩ | ⟨-, e⟩ | ⟨-, -, e⟩ <;> exact ⟨_, e⟩
  | readData => exact ⟨_, readData_ok (Nat.not_le.1 fun hrx => h (.inl ⟨hst, hrx⟩))⟩
  | readChecksum =>
    by_cases hcrc : s.eng.crcCount = 0
    · exact ⟨_, if_pos hcrc⟩
    · exact ⟨_, (if_neg hcrc).trans (readCrcHi_ok (Nat.not_lt.1 fun hlen => h (.inr ⟨hst, hcrc, hlen⟩)))⟩

/-- Under this hardware's value of P_MIDFRAME_RESYNC, a byte whose transition would leave the buffer faults. -/
theorem execDispatch_some_fault {b : Byte} (hl : s.eng.live = true) (hc : s.cfg.midframeResync = false)
    (h : s.eng.accessOutside) : execDispatch (some b) s = .fault .payloadIndexOutOfRange :=
  (whenLive_of_live hl).trans ((dispatchByte_of_no_restart (restartsFrame_of_false hc)).trans (transition_fault h))

/-! ### The invariant rules the accesses out -/

/-- R35 keeps `rx_count` below `cap` in `ReadData` and `msg_len` within it in `ReadChecksum`. -/
theorem Engine.invariant.not_accessOutside {e : Engine} (h : e.invariant) : ¬ e.accessOutside := by
  obtain ⟨⟨hdata, hcheck, -, -⟩, -⟩ := h
  rintro (⟨hst, hrx⟩ | ⟨hst, -, hlen⟩)
  · obtain ⟨-, hcap, hlt⟩ := hdata hst
    omega
  · have hcap := (hcheck hst).1
    omega

/-- A received byte is answered in every state that meets the invariant. -/
theorem dispatchByte_answers (h : s.eng.invariant) (b : Byte) : ∃ t, dispatchByte b s = .next t := by
  cases hr : restartsFrame s b with
  | true => exact ⟨_, dispatchByte_of_restart hr⟩
  | false => rw [dispatchByte_of_no_restart hr]; exact transition_answers h.not_accessOutside

theorem whenLive_ne_payloadFault {r : Result} (h : r ≠ .fault .payloadIndexOutOfRange) :
    whenLive s r ≠ .fault .payloadIndexOutOfRange := by
  unfold whenLive
  split
  · exact h
  · exact nofun

/-- In a state that meets the invariant no operation ends in the model's own fault. -/
theorem exec_ne_payloadFault (h : s.eng.invariant) (i : Instr) : exec i s ≠ .fault .payloadIndexOutOfRange := by
  cases i with
  | init c =>
    change execInit c s ≠ _
    unfold execInit
    split <;> exact nofun
  | dispatch input =>
    cases input with
    | none => exact whenLive_ne_payloadFault nofun
    | some b =>
      obtain ⟨t, ht⟩ := dispatchByte_answers h b
      exact whenLive_ne_payloadFault (by rw [ht]; exact nofun)
  | send cmd data => exact whenLive_ne_payloadFault nofun
  | sendAck => exact whenLive_ne_payloadFault nofun
  | sendNak => exact whenLive_ne_payloadFault nofun
  | checksum data => exact whenLive_ne_payloadFault nofun
  | abort => exact whenLive_ne_payloadFault nofun
  | setCallbacks mask => exact whenLive_ne_payloadFault nofun

/-! ### Every operation keeps the invariant (R35) -/

/-- Registers in `Idle` that differ only in the message and checksum registers meet the invariant. -/
theorem Engine.invariant.of_idle {e f : Engine} (h : e.invariant) (hst : f.st = .idle) (hlive : f.live = e.live)
    (hcap : f.cap = e.cap) (hpay : f.payload = e.payload) : f.invariant := by
  obtain ⟨⟨-, -, -, hl⟩, -, hwf, hin⟩ := h
  simp only [Engine.invariant, Engine.listedInvariant, hst, hlive, hcap, hpay]
  exact ⟨⟨nofun, nofun, by simp, hl⟩, nofun, hwf, hin⟩

theorem initialized_invariant {c : Nat} (h1 : 1 ≤ c) (h2 : c ≤ maxCapacity) :
    (initialized (BitVec.ofNat 8 c)).invariant := by
  have hc : (BitVec.ofNat 8 c).toNat = c := by
    rw [BitVec.toNat_ofNat]
    exact Nat.mod_eq_of_lt (Nat.lt_succ_of_le h2)
  refine ⟨⟨nofun, nofun, by simp [initialized], fun _ => ?_⟩, nofun, Memory.zeros_wf, Memory.zeros_within _⟩
  simp only [initialized, hc]
  exact ⟨h1, h2⟩

theorem beginFrame_invariant {e : Engine} (h : e.invariant) : (beginFrame e).invariant := by
  obtain ⟨⟨-, -, -, hl⟩, -⟩ := h
  exact ⟨⟨nofun, nofun, fun _ => ⟨rfl, rfl⟩, hl⟩, nofun, Memory.zeros_wf, Memory.zeros_within _⟩

/-- A payload byte inside the message keeps the invariant, whether or not it is the last one (R106). -/
theorem readData_invariant {e : Engine} (h : e.invariant) (hst : e.st = .readData) (b : Byte) :
    Engine.invariant { e with
      payload := e.payload.put e.rxCount.toNat b, rxCount := e.rxCount + 1,
      st := if e.rxCount + 1 = e.msgLen then .readChecksum else e.st } := by
  obtain ⟨⟨hdata, -, -, hl⟩, hcrc, hwf, hin⟩ := h
  obtain ⟨h1, hcap, hlt⟩ := hdata hst
  have hbuf := Memory.put_within hin (show e.rxCount.toNat < e.cap.toNat by omega) b
  refine ⟨?_, fun _ => hcrc hst, Memory.put_wf hwf _ _, hbuf⟩
  by_cases hlast : e.rxCount + 1 = e.msgLen
  · simp only [Engine.listedInvariant, if_pos hlast]
    exact ⟨nofun, fun _ => ⟨hcap, hlast, .inl (hcrc hst)⟩, by simp, hl⟩
  · simp only [Engine.listedInvariant, if_neg hlast, hst]
    exact ⟨fun _ => ⟨h1, hcap, by bv_omega⟩, nofun, by simp, hl⟩

/-- Every transition of the parser keeps the invariant. -/
theorem dispatchByte_invariant {b : Byte} (h : s.eng.invariant) (ht : dispatchByte b s = .next t) : t.eng.invariant := by
  have ⟨⟨_, hcheck, hhead, hl⟩, _, hwf, hin⟩ := h
  rcases dispatchByte_cases ht with rfl | ⟨-, k, rfl⟩ | ⟨-, rfl⟩ | ⟨hst, rfl⟩ | ⟨hst, -, rfl⟩ | ⟨hst, hb, rfl⟩ |
    ⟨hst, hb, hcap, rfl⟩ | ⟨hst, -, rfl⟩ | ⟨hst, -, rfl⟩ | ⟨-, -, -, rfl⟩
  · exact beginFrame_invariant h
  · exact h
  · exact h
  · exact ⟨⟨nofun, nofun, fun _ => hhead (.inl hst), hl⟩, nofun, hwf, hin⟩
  · exact h.of_idle rfl rfl rfl rfl
  · obtain ⟨hrx, hcrc⟩ := hhead (.inr hst)
    exact ⟨⟨nofun, fun _ => ⟨by simp [hb], hrx.trans hb.symm, .inl hcrc⟩, nofun, hl⟩, nofun, hwf, hin⟩
  · obtain ⟨hrx, hcrc⟩ := hhead (.inr hst)
    have hpos : 0 < b.toNat := by bv_omega
    exact ⟨⟨fun _ => ⟨hpos, hcap, by simpa [hrx] using hpos⟩, nofun, nofun, hl⟩, fun _ => hcrc, hwf, hin⟩
  · exact readData_invariant h hst b
  · obtain ⟨hlen, hrx, -⟩ := hcheck hst
    exact ⟨⟨by simp [hst], fun _ => ⟨hlen, hrx, .inr rfl⟩, by simp [hst], hl⟩, by simp [hst], hwf, hin⟩
  · exact h.of_idle rfl rfl rfl rfl

/-- Every operation keeps the invariant. -/
theorem exec_invariant {i : Instr} (h : s.eng.invariant) (ht : exec i s = .next t) : t.eng.invariant := by
  cases i with
  | init c => obtain ⟨⟨h1, h2⟩, rfl⟩ := execInit_eq_next.1 ht; exact initialized_invariant h1 h2
  | dispatch input =>
    cases input with
    | none => obtain ⟨-, rfl⟩ := execDispatch_none_eq_next.1 ht; exact h
    | some b => exact dispatchByte_invariant h (execDispatch_some_eq_next.1 ht).2
  | send cmd data => obtain ⟨-, rfl⟩ := execSend_eq_next.1 ht; exact h
  | sendAck => obtain ⟨-, rfl⟩ := execSendAck_eq_next.1 ht; exact h
  | sendNak => obtain ⟨-, rfl⟩ := execSendNak_eq_next.1 ht; exact h
  | checksum data => obtain ⟨-, rfl⟩ := execChecksum_eq_next.1 ht; exact h
  | abort => obtain ⟨-, rfl⟩ := execAbort_eq_next.1 ht; exact h.of_idle rfl rfl rfl rfl
  | setCallbacks mask => obtain ⟨-, rfl⟩ := execSetCallbacks_eq_next.1 ht; exact h

/-! ### Steps and runs -/

/-- Every step keeps the invariant: taking a transaction and recording write no register. -/
theorem step_invariant (h : s.eng.invariant) (ht : step s = .next t) : t.eng.invariant := by
  rcases step_cases ht with rfl | ⟨p, x, rfl⟩ | ⟨p, i, he⟩
  · exact h
  · exact h
  · exact exec_invariant (s := s.withPort p) h he

/-- Settling answers a next state for every outcome but the model's own fault. -/
theorem settle_answers {i : Instr} {r : Result} (h : r ≠ .fault .payloadIndexOutOfRange) :
    ∃ t, settle i s r = .next t := by
  match r with
  | .next t => exact ⟨t, rfl⟩
  | .fault .capacityInvalid => exact ⟨_, rfl⟩
  | .fault .payloadIndexOutOfRange => exact absurd rfl h
  | .refused r => exact ⟨_, rfl⟩

/-- A step from a state that meets the invariant answers a next state, whatever waits on the port. -/
theorem step_answers (h : s.eng.invariant) : ∃ t, step s = .next t := by
  rcases takeTransaction_cases s with e | ⟨p, r, e⟩ | ⟨p, i, e⟩ <;> simp only [step, e]
  · exact ⟨s, rfl⟩
  · exact ⟨_, rfl⟩
  · exact settle_answers (exec_ne_payloadFault (s := s.withPort p) h i)

/-- What every step answers and keeps, every run answers and keeps. -/
theorem run_answers_of_step {M : Host.Core} {P : M.State → Prop} (hstep : ∀ s, P s → ∃ t, M.step s = .next t ∧ P t)
    (n : Nat) (s : M.State) (hs : P s) : ∃ t, M.run n s = .next t ∧ P t := by
  induction n generalizing s with
  | zero => exact ⟨s, rfl, hs⟩
  | succ n ih =>
    obtain ⟨u, hu, hPu⟩ := hstep s hs
    obtain ⟨t, ht, hPt⟩ := ih u hPu
    exact ⟨t, by simp only [Host.Core.run, hu, ht], hPt⟩

/-- Settles O44: every step from a state that meets the invariant answers a state that meets it, and a run is its steps. -/
theorem noRunEverStops : Obligations.NoRunEverStops := by
  have hstep (s : State) (h : s.eng.invariant) : ∃ t, step s = .next t ∧ t.eng.invariant := by
    obtain ⟨t, ht⟩ := step_answers h
    exact ⟨t, ht, step_invariant h ht⟩
  exact run_answers_of_step (M := Sys2Proof.core) hstep

/-! ### The refused configuration and the model's own fault -/

/-- A refused transaction is recorded, and nothing else of the state but the port differs. -/
theorem step_of_refused {r : Refusal} {p : List Transaction} (h : takeTransaction s = .refused (s.withPort p) r) :
    step s = .next { s with port := p, record := s.record ++ [.refusal r] } := by
  simp only [step, h]
  rfl

/-- Settles O8: equal markers are no valid configuration, so the transaction is refused before it is decoded. -/
theorem equalMarkersAreRefused : Obligations.EqualMarkersAreRefused := by
  intro s x rest hport hequal
  refine step_of_refused (takeTransaction_invalidConfig hport ?_)
  rintro ⟨⟨hsa, hsn, han⟩, -⟩
  rcases hequal with h | h | h
  · exact hsa h
  · exact hsn h
  · exact han h

/-- Settles O13: both hypotheses are accesses outside the buffer. -/
theorem payloadAccessOutsideTheBufferFaults : Obligations.PayloadAccessOutsideTheBufferFaults := fun _ _ hl hc =>
  ⟨fun hst hrx => execDispatch_some_fault hl hc (.inl ⟨hst, hrx⟩),
   fun hst hcrc hlen => execDispatch_some_fault hl hc (.inr ⟨hst, hcrc, hlen⟩)⟩

end Sys2Proof.Machine
end

section
/-! SUPPORT. The state family: who writes which register (10_state.md R20, R24, R32, R39), what INIT leaves (R38), where
the invariant of R35 starts and that steps keep it, and several instances side by side (R36). -/

namespace Sys2Proof.Machine

variable {s t : State}

/-! ### The invariant (R35) -/

/-- Settles O43: taking a transaction and recording write no register, and every operation keeps the invariant. -/
theorem stepKeepsTheInvariant : Obligations.StepKeepsTheInvariant := fun _ _ => step_invariant

/-- The registers before INIT are in `Idle` and not live, with an empty buffer: every line of R35 holds for want of its
premise or by its zeros. -/
theorem beforeInit_invariant : Engine.beforeInit.invariant :=
  ⟨⟨nofun, nofun, fun _ => ⟨rfl, rfl⟩, nofun⟩, nofun, Memory.zeros_wf, Memory.zeros_within _⟩

/-- Settles O42: the configuration is no register, so every state before INIT holds the same registers. -/
theorem invariantHoldsBeforeInit : Obligations.InvariantHoldsBeforeInit :=
  ⟨fun _ => beforeInit_invariant, beforeInit_invariant⟩

/-! ### INIT (R38, R130) -/

theorem initialized_cap_toNat {c : Nat} (h : c ≤ maxCapacity) : (initialized (BitVec.ofNat 8 c)).cap.toNat = c :=
  (BitVec.toNat_ofNat c 8).trans (Nat.mod_eq_of_lt (Nat.lt_succ_of_le h))

/-- Settles O14: INIT with a legal capacity answers the initialized registers over the default bindings. -/
theorem initSetsEveryRegister : Obligations.InitSetsEveryRegister := by
  intro c s h1 h2
  have hcap := initialized_cap_toNat h2
  have hread (j : Nat) (hj : j < c) : (initialized (BitVec.ofNat 8 c)).memRead j = .ok 0 :=
    memRead_ok (hcap.symm ▸ hj)
  exact ⟨_, execInit_eq_next.2 ⟨⟨h1, h2⟩, rfl⟩, rfl, hcap, hread, rfl, rfl, rfl, rfl, rfl, rfl⟩

/-! ### Who writes what (R20, R39) -/

/-- A received byte writes neither `live` nor `cap`, and of the rest of the machine only the events. -/
theorem dispatchByte_frame {b : Byte} (h : dispatchByte b s = .next t) :
    t.cfg = s.cfg ∧ t.port = s.port ∧ t.record = s.record ∧ t.bindings = s.bindings ∧
      t.eng.live = s.eng.live ∧ t.eng.cap = s.eng.cap := by
  rcases dispatchByte_cases h with rfl | ⟨-, k, rfl⟩ | ⟨-, rfl⟩ | ⟨-, rfl⟩ | ⟨-, -, rfl⟩ | ⟨-, -, rfl⟩ |
    ⟨-, -, -, rfl⟩ | ⟨-, -, rfl⟩ | ⟨-, -, rfl⟩ | ⟨-, -, -, rfl⟩ <;>
  exact ⟨rfl, rfl, rfl, rfl, rfl, rfl⟩

/-- DISPATCH, with a byte or without one, has the frame of a received byte. -/
theorem execDispatch_frame {input : Option Byte} (h : execDispatch input s = .next t) :
    t.cfg = s.cfg ∧ t.port = s.port ∧ t.record = s.record ∧ t.bindings = s.bindings ∧
      t.eng.live = s.eng.live ∧ t.eng.cap = s.eng.cap := by
  cases input with
  | none => obtain ⟨-, rfl⟩ := execDispatch_none_eq_next.1 h; exact ⟨rfl, rfl, rfl, rfl, rfl, rfl⟩
  | some b => exact dispatchByte_frame (execDispatch_some_eq_next.1 h).2

/-- The operations that only emit events. -/
def onlyEmits (i : Instr) : Prop :=
  (∃ cmd data, i = .send cmd data) ∨ i = .sendAck ∨ i = .sendNak ∨ ∃ data, i = .checksum data

/-- What an operation can do, when it answers a state: INIT sets the registers and the bindings, DISPATCH is the parser's,
ABORT writes `st`, SET_CALLBACKS writes the bindings, and every other operation only emits. -/
theorem exec_cases {i : Instr} (h : exec i s = .next t) :
    (∃ c, i = .init c ∧ t = (s.withEngine (initialized (BitVec.ofNat 8 c))).withBindings CallbackSlots.none) ∨
    (∃ input, i = .dispatch input ∧ execDispatch input s = .next t) ∨
    (i = .abort ∧ t = s.withEngine { s.eng with st := .idle }) ∨
    (∃ m, i = .setCallbacks m ∧ t = s.withBindings (s.bindings.union m)) ∨
    (onlyEmits i ∧ ∃ es, t = s.emit es) := by
  cases i with
  | init c => exact .inl ⟨c, rfl, (execInit_eq_next.1 h).2⟩
  | dispatch input => exact .inr (.inl ⟨input, rfl, h⟩)
  | abort => exact .inr (.inr (.inl ⟨rfl, (execAbort_eq_next.1 h).2⟩))
  | setCallbacks m => exact .inr (.inr (.inr (.inl ⟨m, rfl, (execSetCallbacks_eq_next.1 h).2⟩)))
  | send cmd data => exact .inr (.inr (.inr (.inr ⟨.inl ⟨_, _, rfl⟩, _, (execSend_eq_next.1 h).2⟩)))
  | sendAck => exact .inr (.inr (.inr (.inr ⟨.inr (.inl rfl), _, (execSendAck_eq_next.1 h).2⟩)))
  | sendNak => exact .inr (.inr (.inr (.inr ⟨.inr (.inr (.inl rfl)), _, (execSendNak_eq_next.1 h).2⟩)))
  | checksum data => exact .inr (.inr (.inr (.inr ⟨.inr (.inr (.inr ⟨_, rfl⟩)), _, (execChecksum_eq_next.1 h).2⟩)))

/-- Settles O35: the five operations emit or bind and ABORT writes `st`; INIT and DISPATCH are not spoken of. -/
theorem nonReceiveOperationsWriteNoRegister : Obligations.NonReceiveOperationsWriteNoRegister := by
  intro i s t h
  rcases exec_cases h with ⟨c, rfl, -⟩ | ⟨input, rfl, -⟩ | ⟨rfl, rfl⟩ | ⟨m, rfl, rfl⟩ | ⟨hi, es, rfl⟩
  · exact ⟨by simp, nofun⟩
  · exact ⟨by simp, nofun⟩
  · exact ⟨by simp, fun _ => rfl⟩
  · exact ⟨fun _ => rfl, nofun⟩
  · exact ⟨fun _ => rfl, by rintro rfl; simp [onlyEmits] at hi⟩

/-- Settles O36: INIT escapes every clause but the first three, DISPATCH writes by the parser's frame, ABORT writes `st`,
SET_CALLBACKS the bindings, and the others only the events. -/
theorem onlyTheNamedOperationsWrite : Obligations.OnlyTheNamedOperationsWrite := by
  intro i s t h
  rcases exec_cases h with ⟨c, rfl, rfl⟩ | ⟨input, rfl, hd⟩ | ⟨rfl, rfl⟩ | ⟨m, rfl, rfl⟩ | ⟨-, es, rfl⟩
  · exact ⟨rfl, rfl, rfl, fun hc => absurd rfl (hc c), fun hc => absurd rfl (hc c), fun hc => absurd rfl (hc c),
      fun hc => absurd rfl (hc c)⟩
  · obtain ⟨hcfg, hport, hrecord, hbindings, hlive, hcap⟩ := execDispatch_frame hd
    exact ⟨hcfg, hport, hrecord, fun _ => ⟨hlive, hcap⟩, fun _ _ => hbindings, fun _ hb => absurd rfl (hb input),
      fun _ hb => absurd rfl (hb input)⟩
  · exact ⟨rfl, rfl, rfl, fun _ => ⟨rfl, rfl⟩, fun _ _ => rfl, fun _ _ => rfl, fun _ _ ha => absurd rfl ha⟩
  · exact ⟨rfl, rfl, rfl, fun _ => ⟨rfl, rfl⟩, fun _ hm => absurd rfl (hm m), fun _ _ => rfl, fun _ _ _ => rfl⟩
  · exact ⟨rfl, rfl, rfl, fun _ => ⟨rfl, rfl⟩, fun _ _ => rfl, fun _ _ => rfl, fun _ _ _ => rfl⟩

/-! ### Several instances (R36, R53) -/

variable {y z : System} {n m : Nat}

theorem stepInstance_of_none (h : y.instances[n]? = none) : y.stepInstance n = .next y := by
  simp only [System.stepInstance, h]

theorem stepInstance_of_some (h : y.instances[n]? = some s) (hs : step s = .next t) :
    y.stepInstance n = .next { instances := y.instances.set n t } := by
  simp only [System.stepInstance, h, hs]

/-- What `stepInstance n` can do, when it answers a system: nothing beyond the end of the list, else the step of the
`n`-th state, in its place. -/
theorem stepInstance_cases (h : y.stepInstance n = .next z) :
    (y.instances[n]? = none ∧ z = y) ∨
    (∃ s t, y.instances[n]? = some s ∧ step s = .next t ∧ z = { instances := y.instances.set n t }) := by
  unfold System.stepInstance at h
  cases hn : y.instances[n]? with
  | none =>
    simp only [hn] at h
    cases h
    exact .inl ⟨rfl, rfl⟩
  | some s =>
    simp only [hn] at h
    cases hs : step s with
    | next t =>
      simp only [hs] at h
      cases h
      exact .inr ⟨s, t, rfl, hs, rfl⟩
    | fault f => simp only [hs, reduceCtorEq] at h
    | refused r => simp only [hs, reduceCtorEq] at h

/-- The other instances are as they were. -/
theorem stepInstance_getElem?_ne (h : y.stepInstance n = .next z) (hne : m ≠ n) :
    z.instances[m]? = y.instances[m]? := by
  rcases stepInstance_cases h with ⟨-, rfl⟩ | ⟨s, t, -, -, rfl⟩
  · rfl
  · exact List.getElem?_set_ne hne.symm

/-- The stepped place holds what the step of its own state answers. -/
theorem stepInstance_getElem?_self (h : y.stepInstance n = .next z) (hs : y.instances[n]? = some s) :
    ∃ t, step s = .next t ∧ z.instances[n]? = some t := by
  rcases stepInstance_cases h with ⟨hn, -⟩ | ⟨s', t, hs', ht, rfl⟩
  · exact absurd (hs.symm.trans hn) nofun
  · obtain rfl := Option.some.inj (hs.symm.trans hs')
    obtain ⟨hlt, -⟩ := List.getElem?_eq_some_iff.1 hs
    exact ⟨t, ht, List.getElem?_set_self hlt⟩

/-- Each of two different instances finds itself the same before and after the other's step, so the two steps write the
same two places of the list in either order. -/
theorem stepInstance_comm {w : System} (hne : n ≠ m) (hz : y.stepInstance n = .next z)
    (hw : z.stepInstance m = .next w) : ∃ v, y.stepInstance m = .next v ∧ v.stepInstance n = .next w := by
  have hm := stepInstance_getElem?_ne hz hne.symm
  have hn := stepInstance_getElem?_ne hw hne
  rcases stepInstance_cases hz with ⟨hnone, rfl⟩ | ⟨s, t, hs, ht, rfl⟩
  · exact ⟨w, hw, stepInstance_of_none (hn.trans hnone)⟩
  · rcases stepInstance_cases hw with ⟨hnone, rfl⟩ | ⟨s', t', hs', ht', rfl⟩
    · exact ⟨y, stepInstance_of_none (hm.symm.trans hnone), stepInstance_of_some hs ht⟩
    · have hv := stepInstance_of_some (hm.symm.trans hs') ht'
      have hself := (stepInstance_getElem?_ne hv hne).trans hs
      exact ⟨_, hv, by rw [stepInstance_of_some hself ht, List.set_comm _ _ hne]⟩

/-- Settles O52: a step writes its own place in the list alone, and writes to different places commute. -/
theorem instancesAreIndependent : Obligations.InstancesAreIndependent :=
  ⟨fun _ _ _ h => ⟨fun _ => stepInstance_getElem?_ne h, fun _ => stepInstance_getElem?_self h⟩,
   fun _ _ _ _ _ => stepInstance_comm⟩

end Sys2Proof.Machine
end

section
/-! SUPPORT. The memory family: the order of the transmitted bytes (20_memory.md R48), the byte order of the received
checksum (R42), and which operations done twice are as done once (R45). -/

namespace Sys2Proof.Machine

variable {s t : State}

/-! ### The transmitted byte stream (R48) -/

/-- The stream of a run is that of its first part, then that of the rest. -/
@[simp] theorem transmitted_append (es fs : List OutEvent) :
    transmitted (es ++ fs) = transmitted es ++ transmitted fs := by
  induction es with
  | nil => rfl
  | cons e es ih => cases e <;> simp [transmitted, ih]

/-- Bytes emitted one event each are the bytes transmitted. -/
@[simp] theorem transmitted_map_outByte (bs : List Byte) : transmitted (bs.map .outByte) = bs := by
  induction bs with
  | nil => rfl
  | cons b bs ih => simp [transmitted, ih]

/-- Settles O21: SEND that answers only emits its frame, one event a byte, and the stream of appended events is appended. -/
theorem sendExtendsTheTransmittedStream : Obligations.SendExtendsTheTransmittedStream := by
  intro cmd data s t h
  obtain ⟨-, rfl⟩ := execSend_eq_next.1 h
  rw [State.emit_events, transmitted_append, transmitted_map_outByte]

/-! ### The two checksum bytes (R42) -/

/-- A widened byte lies within the low mask. -/
theorem zext16_and_lowMask (b : Byte) : zext16 b &&& 0x00FF = zext16 b := by
  revert b
  decide +kernel

/-- The low mask drops what the high mask kept of the old value, and keeps the byte written. -/
theorem withLowByte_and_lowMask (v : Half) (lo : Byte) : withLowByte v lo &&& 0x00FF = zext16 lo := by
  have hmasks : (0xFF00 : Half) &&& 0x00FF = 0#16 := by decide
  rw [withLowByte, BitVec.and_or_distrib_right, BitVec.and_assoc, hmasks, BitVec.and_zero, BitVec.zero_or,
    zext16_and_lowMask]

/-- `withHighByte` with its mask as a 16-bit literal: the definition elaborates it as a cast natural number, which does
not match `withLowByte_and_lowMask` syntactically. -/
theorem withHighByte_eq (v : Half) (hi : Byte) : withHighByte v hi = (v &&& (0x00FF : Half)) ||| (zext16 hi <<< 8) := rfl

/-- CRC_LO and then CRC_HI overwrite the whole value. -/
theorem withHighByte_withLowByte (v : Half) (lo hi : Byte) : withHighByte (withLowByte v lo) hi = half lo hi := by
  rw [withHighByte_eq, withLowByte_and_lowMask, half]

/-- Settles O5: the two bytes written are the value carried low byte first, which comes apart into them. -/
theorem checksumBytesAreLowByteFirst : Obligations.ChecksumBytesAreLowByteFirst := by
  intro v lo hi
  rw [withHighByte_withLowByte]
  exact ⟨rfl, lowByte_half lo hi, highByte_half lo hi⟩

/-! ### Idempotent operations (R45) -/

/-- A slot already selected stays selected. -/
theorem slots_union_union_self (k m : CallbackSlots) : (k.union m).union m = k.union m := by
  simp [CallbackSlots.union]

/-- The bindings last written stand. -/
@[simp] theorem State.withBindings_withBindings (s : State) (j k : CallbackSlots) :
    (s.withBindings j).withBindings k = s.withBindings k := rfl

theorem execAbort_idempotent (h : execAbort s = .next t) : execAbort t = .next t := by
  obtain ⟨hl, rfl⟩ := execAbort_eq_next.1 h
  exact execAbort_eq_next.2 ⟨hl, rfl⟩

theorem execSetCallbacks_idempotent {m : CallbackSlots} (h : execSetCallbacks m s = .next t) :
    execSetCallbacks m t = .next t := by
  obtain ⟨hl, rfl⟩ := execSetCallbacks_eq_next.1 h
  refine execSetCallbacks_eq_next.2 ⟨hl, ?_⟩
  rw [State.withBindings_bindings, slots_union_union_self, State.withBindings_withBindings]

theorem execDispatch_none_idempotent (h : execDispatch none s = .next t) : execDispatch none t = .next t := by
  obtain ⟨hl, rfl⟩ := execDispatch_none_eq_next.1 h
  exact h

/-- Settles O41: ABORT and SET_CALLBACKS leave what they would write again, and `DISPATCH none` writes nothing. -/
theorem idempotentOperations : Obligations.IdempotentOperations := by
  rintro i s t (rfl | ⟨m, rfl⟩ | rfl) h
  · exact execAbort_idempotent h
  · exact execSetCallbacks_idempotent h
  · exact execDispatch_none_idempotent h

end Sys2Proof.Machine
end

section
/-! SUPPORT. The encoding family: transactions and operations correspond one to one (30_encoding.md R67 to R70), the
illegal byte strings are refused (R69), and a step settles the operation it decodes (60_exceptions.md R142). -/

namespace Sys2Proof

variable {bs rest : List Byte} {i : Instr}

/-! ### What each operand decoder reads (R68) -/

theorem decodeInit_eq_ok_iff : decodeInit bs = .ok (i, rest) ↔ ∃ c : Byte, i = .init c.toNat ∧ bs = c :: rest := by
  cases bs with
  | nil => simp [decodeInit]
  | cons c tail => simp [decodeInit, eq_comm]

theorem decodeDispatch_false_eq_ok_iff :
    decodeDispatch false bs = .ok (i, rest) ↔ i = .dispatch none ∧ bs = rest := by
  simp [decodeDispatch, eq_comm]

theorem decodeDispatch_true_eq_ok_iff :
    decodeDispatch true bs = .ok (i, rest) ↔ ∃ b, i = .dispatch (some b) ∧ bs = b :: rest := by
  cases bs with
  | nil => simp [decodeDispatch]
  | cons b tail => simp [decodeDispatch, eq_comm]

theorem decodeChecksum_eq_ok_iff :
    decodeChecksum bs = .ok (i, rest) ↔ ∃ data, i = .checksum data ∧ decodeData bs = some (data, rest) := by
  rw [decodeChecksum]
  cases decodeData bs with
  | none => simp
  | some p => obtain ⟨data, tail⟩ := p; simp [eq_comm]

theorem decodeSend_eq_ok_iff :
    decodeSend bs = .ok (i, rest) ↔
      ∃ cmd data tail, i = .send cmd data ∧ bs = cmd :: tail ∧ decodeData tail = some (data, rest) := by
  cases bs with
  | nil => simp [decodeSend]
  | cons cmd bs =>
    rw [decodeSend]
    cases hd : decodeData bs with
    | none => simp [hd]
    | some p => obtain ⟨data, tail⟩ := p; simp [hd, eq_comm]

theorem decodeSetCallbacks_eq_ok_iff :
    decodeSetCallbacks bs = .ok (i, rest) ↔ ∃ k, i = .setCallbacks k ∧ bs = maskOfSlots k :: rest := by
  constructor
  · intro h
    cases bs with
    | nil => cases h
    | cons m tail =>
      by_cases hm : maskReserved m = 0
      · rw [decodeSetCallbacks, if_pos hm] at h
        cases h
        exact ⟨_, rfl, by rw [maskOfSlots_slotsOfMask hm]⟩
      · rw [decodeSetCallbacks, if_neg hm] at h
        cases h
  · rintro ⟨k, rfl, rfl⟩
    simp [decodeSetCallbacks]

/-! ### When an operand does not decode (R69) -/

theorem decodeInit_error_iff : (∃ e, decodeInit bs = .error e) ↔ bs = [] := by
  cases bs <;> simp [decodeInit]

theorem decodeDispatch_true_error_iff : (∃ e, decodeDispatch true bs = .error e) ↔ bs = [] := by
  cases bs <;> simp [decodeDispatch]

theorem decodeSetCallbacks_error_iff :
    (∃ e, decodeSetCallbacks bs = .error e) ↔ bs = [] ∨ ∃ m tail, bs = m :: tail ∧ maskReserved m ≠ 0 := by
  cases bs with
  | nil => simp [decodeSetCallbacks]
  | cons m tail =>
    by_cases hm : maskReserved m = 0
    · rw [decodeSetCallbacks, if_pos hm]; simp [hm]
    · rw [decodeSetCallbacks, if_neg hm]; simpa using hm

/-- A data operand does not decode exactly when its count or the data it counts is cut short. -/
theorem decodeData_eq_none_iff :
    decodeData bs = none ↔
      bs.length < 2 ∨ ∃ lo hi tail, bs = lo :: hi :: tail ∧ tail.length < lo.toNat + 256 * hi.toNat := by
  match bs with
  | [] => simp [decodeData]
  | [lo] => simp [decodeData]
  | lo :: hi :: tail =>
    rw [decodeData, splitBytes_eq_none, half_toNat]
    simp [← and_assoc]

theorem decodeChecksum_error_iff : (∃ e, decodeChecksum bs = .error e) ↔ decodeData bs = none := by
  rw [decodeChecksum]
  cases decodeData bs <;> simp

theorem decodeSend_error_iff :
    (∃ e, decodeSend bs = .error e) ↔ bs.length < 3 ∨
      ∃ cmd lo hi tail, bs = cmd :: lo :: hi :: tail ∧ tail.length < lo.toNat + 256 * hi.toNat := by
  cases bs with
  | nil => simp [decodeSend]
  | cons cmd bs =>
    have hdata : (∃ e, decodeSend (cmd :: bs) = .error e) ↔ decodeData bs = none := by
      rw [decodeSend]
      cases decodeData bs <;> simp
    rw [hdata, decodeData_eq_none_iff]
    simp [Nat.lt_succ_iff]

/-! ### The first byte (R66, R67) -/

/-- The first bytes of R69's first three lines: a reserved OP, RSV not 0, or V = 1 outside DISPATCH. -/
def reservedHeader (h : Byte) : Prop :=
  8 ≤ (opField h).toNat ∨ rsvField h ≠ 0 ∨ (vBit h = true ∧ opField h ≠ 1)

/-- A first byte that is not reserved is one of the nine of R67's table. -/
theorem header_cases (h : Byte) :
    reservedHeader h ∨ h = 0x00 ∨ h = 0x01 ∨ h = 0x11 ∨ h = 0x02 ∨ h = 0x03 ∨ h = 0x04 ∨ h = 0x05 ∨ h = 0x06 ∨
      h = 0x07 := by
  unfold reservedHeader
  revert h
  decide +kernel

/-- A reserved first byte is refused, whatever follows it. -/
theorem decode_reservedHeader {h : Byte} (hh : reservedHeader h) (bs : List Byte) :
    ∃ e, decode (h :: bs) = .error e := by
  by_cases hop : 8 ≤ (opField h).toNat
  · exact ⟨_, if_pos hop⟩
  by_cases hrsv : rsvField h ≠ 0
  · exact ⟨_, (if_neg hop).trans (if_pos hrsv)⟩
  · have hv := (hh.resolve_left hop).resolve_left hrsv
    exact ⟨_, (if_neg hop).trans ((if_neg hrsv).trans (if_pos hv))⟩

theorem decode_init (bs : List Byte) : decode (0x00 :: bs) = decodeInit bs := rfl
theorem decode_dispatch_none (bs : List Byte) : decode (0x01 :: bs) = decodeDispatch false bs := rfl
theorem decode_dispatch_some (bs : List Byte) : decode (0x11 :: bs) = decodeDispatch true bs := rfl
theorem decode_send (bs : List Byte) : decode (0x02 :: bs) = decodeSend bs := rfl
theorem decode_sendAck (bs : List Byte) : decode (0x03 :: bs) = .ok (.sendAck, bs) := rfl
theorem decode_sendNak (bs : List Byte) : decode (0x04 :: bs) = .ok (.sendNak, bs) := rfl
theorem decode_checksum (bs : List Byte) : decode (0x05 :: bs) = decodeChecksum bs := rfl
theorem decode_abort (bs : List Byte) : decode (0x06 :: bs) = .ok (.abort, bs) := rfl
theorem decode_setCallbacks (bs : List Byte) : decode (0x07 :: bs) = decodeSetCallbacks bs := rfl

/-! ### Decoding and encoding are inverse (R67, R70) -/

/-- Settles O1: the first byte selects the operand decoder, which reads back the operand carried. -/
theorem decodeOfEncodeGivesTheOperation : Obligations.DecodeOfEncodeGivesTheOperation := by
  intro i rest hwf
  cases i with
  | init c =>
    have hc : (BitVec.ofNat 8 c).toNat = c :=
      (BitVec.toNat_ofNat c 8).trans (Nat.mod_eq_of_lt (Nat.lt_succ_of_le (wellFormed_init.1 hwf)))
    exact decodeInit_eq_ok_iff.2 ⟨BitVec.ofNat 8 c, by rw [hc], rfl⟩
  | dispatch input =>
    cases input with
    | none => exact decodeDispatch_false_eq_ok_iff.2 ⟨rfl, rfl⟩
    | some b => exact decodeDispatch_true_eq_ok_iff.2 ⟨b, rfl, rfl⟩
  | send cmd data =>
    have hdata := decodeData_encodeData (wellFormed_send.1 hwf) rest
    exact decodeSend_eq_ok_iff.2 ⟨cmd, data, _, rfl, rfl, hdata⟩
  | sendAck => exact decode_sendAck rest
  | sendNak => exact decode_sendNak rest
  | checksum data =>
    have hdata := decodeData_encodeData (wellFormed_checksum.1 hwf) rest
    exact decodeChecksum_eq_ok_iff.2 ⟨data, rfl, hdata⟩
  | abort => exact decode_abort rest
  | setCallbacks k => exact decodeSetCallbacks_eq_ok_iff.2 ⟨k, rfl, rfl⟩

/-- Settles O2: only the nine first bytes of R67's table decode, and each operand decoder reads the operand's carried form. -/
theorem encodeOfDecodeGivesTheBytes : Obligations.EncodeOfDecodeGivesTheBytes := by
  intro bs rest i hd
  cases bs with
  | nil => cases hd
  | cons h bs =>
    rcases header_cases h with hh | rfl | rfl | rfl | rfl | rfl | rfl | rfl | rfl | rfl
    · obtain ⟨e, he⟩ := decode_reservedHeader hh bs
      cases he.symm.trans hd
    · obtain ⟨c, rfl, rfl⟩ := decodeInit_eq_ok_iff.1 hd
      exact ⟨wellFormed_init.2 (Nat.le_of_lt_succ c.isLt), by simp [encode]⟩
    · obtain ⟨rfl, rfl⟩ := decodeDispatch_false_eq_ok_iff.1 hd
      exact ⟨rfl, rfl⟩
    · obtain ⟨b, rfl, rfl⟩ := decodeDispatch_true_eq_ok_iff.1 hd
      exact ⟨rfl, rfl⟩
    · obtain ⟨cmd, data, tail, rfl, rfl, hdata⟩ := decodeSend_eq_ok_iff.1 hd
      obtain ⟨hlen, rfl⟩ := decodeData_eq_some hdata
      exact ⟨wellFormed_send.2 hlen, rfl⟩
    · cases hd
      exact ⟨rfl, rfl⟩
    · cases hd
      exact ⟨rfl, rfl⟩
    · obtain ⟨data, rfl, hdata⟩ := decodeChecksum_eq_ok_iff.1 hd
      obtain ⟨hlen, rfl⟩ := decodeData_eq_some hdata
      exact ⟨wellFormed_checksum.2 hlen, rfl⟩
    · cases hd
      exact ⟨rfl, rfl⟩
    · obtain ⟨k, rfl, rfl⟩ := decodeSetCallbacks_eq_ok_iff.1 hd
      exact ⟨rfl, rfl⟩

end Sys2Proof

namespace Sys2Proof.Machine

/-! ### The illegal byte strings (R69) -/

/-- The statement's own list of R69 and the decoder agree, first byte by first byte. -/
theorem illegalTransaction_iff (bs : List Byte) : illegalTransaction bs ↔ ∃ e, decode bs = .error e := by
  cases bs with
  | nil => exact ⟨fun _ => ⟨_, rfl⟩, fun _ => trivial⟩
  | cons h bs =>
    rcases header_cases h with hh | rfl | rfl | rfl | rfl | rfl | rfl | rfl | rfl | rfl
    · refine ⟨fun _ => decode_reservedHeader hh bs, fun _ => ?_⟩
      rcases hh with h1 | h2 | h3
      · exact .inl h1
      · exact .inr (.inl h2)
      · exact .inr (.inr (.inl h3))
    · rw [decode_init, decodeInit_error_iff]
      simp [illegalTransaction]
    · rw [decode_dispatch_none, decodeDispatch]
      simp [illegalTransaction]
    · rw [decode_dispatch_some, decodeDispatch_true_error_iff]
      simp [illegalTransaction]
    · rw [decode_send, decodeSend_error_iff]
      simp [illegalTransaction]
    · rw [decode_sendAck]
      simp [illegalTransaction]
    · rw [decode_sendNak]
      simp [illegalTransaction]
    · rw [decode_checksum, decodeChecksum_error_iff, decodeData_eq_none_iff]
      simp [illegalTransaction]
    · rw [decode_abort]
      simp [illegalTransaction]
    · rw [decode_setCallbacks, decodeSetCallbacks_error_iff]
      simp [illegalTransaction, maskReserved, or_comm]

/-- Settles O3: a byte string that does not decode is refused by the step that takes it, and only the record changes. -/
theorem reservedTransactionsAreRefused : Obligations.ReservedTransactionsAreRefused := by
  refine fun bs => ⟨illegalTransaction_iff bs, fun s rest hbad hport hcfg => ?_⟩
  obtain ⟨e, he⟩ := (illegalTransaction_iff bs).1 hbad
  exact step_of_refused (takeTransaction_undecodable hport hcfg he)

/-! ### The step of a decoded operation (R67, R142) -/

/-- A step that takes a decodable transaction settles its operation on the state without it. -/
theorem step_of_operation {s : State} {bs tail : List Byte} {rest : List Transaction} {i : Instr}
    (hport : s.port = { bytes := bs, overlapping := false } :: rest) (hcfg : validConfig s.cfg)
    (hd : decode bs = .ok (i, tail)) :
    step s = settle i (s.withPort (requeue tail rest)) (exec i (s.withPort (requeue tail rest))) := by
  simp only [step, takeTransaction_operation hport hcfg hd]

/-- Settles O6: one clause for each outcome that settling tells apart. -/
theorem stepRunsTheDecodedOperation : Obligations.StepRunsTheDecodedOperation := by
  rintro s s₁ bs tail rest i hport hcfg hd rfl
  have hstep := step_of_operation hport hcfg hd
  exact ⟨fun t h => hstep.trans (congrArg _ h), fun h => hstep.trans (congrArg _ h), fun h => hstep.trans (congrArg _ h),
    fun r h => hstep.trans (congrArg _ h)⟩

/-! ### Words and lines written out (R67, R71, R72) -/

/-- Settles O4: each word evaluates to its operation. -/
theorem hostWordsDecode : Obligations.HostWordsDecode := ⟨rfl, rfl, rfl, rfl, rfl, rfl, rfl, rfl, rfl⟩

/-- Settles O53: the characters of each line are fixed, so it evaluates with the markers left open. -/
theorem assemblerBindsTheMarkers : Obligations.AssemblerBindsTheMarkers := fun _ => ⟨rfl, rfl, rfl, rfl, rfl⟩

end Sys2Proof.Machine
end

section
/-! SUPPORT. The length of a received frame: LEN fixes how many bytes the parser still takes (30_encoding.md R65), so a
bounded number of bytes brings it back to `Idle` (10_state.md R22). -/

namespace Sys2Proof.Machine

variable {s t : State}

/-! ### Feeding bytes one by one -/

theorem feedingGives_nil (s : State) : feedingGives [] s s.eng.st [] :=
  ⟨s, rfl, rfl, (List.append_nil _).symm, rfl, rfl, rfl, rfl⟩

/-- Feeding a byte and then the rest: the events add up, and what each byte leaves unchanged they all do. -/
theorem feedingGives_cons {b : Byte} {bs : List Byte} {st : ParserState} {es fs : List OutEvent}
    (hl : s.eng.live = true) (hb : dispatchByte b s = .next t) (he : t.events = s.events ++ es)
    (h : feedingGives bs t st fs) : feedingGives (b :: bs) s st (es ++ fs) := by
  obtain ⟨u, hu, hst, hev, hcfg, hbind, hport, hrec⟩ := h
  obtain ⟨hcfg', hport', hrec', hbind', -, -⟩ := dispatchByte_frame hb
  have hexec : exec (.dispatch (some b)) s = .next t := (whenLive_of_live hl).trans hb
  have hrun : execAll (feed (b :: bs)) s = .next u := by
    change execAll (.dispatch (some b) :: feed bs) s = _
    simp only [execAll, hexec, hu]
  exact ⟨u, hrun, hst, by rw [hev, he, List.append_assoc], hcfg.trans hcfg', hbind.trans hbind', hport.trans hport',
    hrec.trans hrec'⟩

/-- A byte that emits nothing leaves the events to the rest. -/
theorem feedingGives_cons_quiet {b : Byte} {bs : List Byte} {st : ParserState} {fs : List OutEvent}
    (hl : s.eng.live = true) (hb : dispatchByte b s = .next t) (he : t.events = s.events)
    (h : feedingGives bs t st fs) : feedingGives (b :: bs) s st fs :=
  feedingGives_cons hl hb (he.trans (List.append_nil _).symm) h

/-- A received byte only adds events. -/
theorem dispatchByte_events {b : Byte} (h : dispatchByte b s = .next t) : ∃ es, t.events = s.events ++ es := by
  have quiet : ∃ es, s.events = s.events ++ es := ⟨[], (List.append_nil _).symm⟩
  rcases dispatchByte_cases h with rfl | ⟨-, k, rfl⟩ | ⟨-, rfl⟩ | ⟨-, rfl⟩ | ⟨-, -, rfl⟩ | ⟨-, -, rfl⟩ |
    ⟨-, -, -, rfl⟩ | ⟨-, -, rfl⟩ | ⟨-, -, rfl⟩ | ⟨-, -, -, rfl⟩
  exacts [quiet, ⟨_, rfl⟩, quiet, quiet, ⟨_, rfl⟩, quiet, quiet, quiet, quiet, ⟨_, rfl⟩]

/-! ### The header of a frame: START, CMD, LEN (R101, R103 to R105) -/

/-- The registers after START and CMD. -/
def afterCommand (e : Engine) (cmd : Byte) : Engine := { beginFrame e with msgCmd := cmd, st := .readLength }

/-- The registers after START, CMD and a LEN within the capacity. -/
def afterLength (e : Engine) (cmd len : Byte) : Engine :=
  { beginFrame e with msgCmd := cmd, msgLen := len, st := if len = 0 then .readChecksum else .readData }

/-- `ReadLength` on a LEN above the capacity. -/
theorem readLength_of_overCapacity {b : Byte} (h : s.eng.cap.toNat < b.toNat) :
    readLength b s = .next ((s.withEngine { s.eng with msgLen := b, st := .idle }).emit [nakEvent s]) :=
  if_pos (lengthOverCapacity_iff.2 h)

/-- `ReadLength` on a LEN within the capacity, after START and CMD. -/
theorem readLength_afterCommand {cmd len : Byte} (h : len.toNat ≤ s.eng.cap.toNat) :
    readLength len (s.withEngine (afterCommand s.eng cmd)) = .next (s.withEngine (afterLength s.eng cmd len)) := by
  rcases readLength_cases len (s.withEngine (afterCommand s.eng cmd)) with ⟨hover, -⟩ | ⟨hzero, e⟩ | ⟨hne, -, e⟩
  · exact absurd hover (Nat.not_lt.2 h)
  · rw [e, afterLength, if_pos hzero]
    rfl
  · rw [e, afterLength, if_neg hne]
    rfl

section Header

variable {cmd len : Byte} {bs : List Byte} {st : ParserState} {es fs : List OutEvent} (hr : receiving s)
include hr

theorem feedingGives_start (h : feedingGives bs (s.withEngine (beginFrame s.eng)) st es) :
    feedingGives (s.cfg.startByte :: bs) s st es := by
  obtain ⟨hl, hst, hc⟩ := hr
  have hb : dispatchByte s.cfg.startByte s = .next (s.withEngine (beginFrame s.eng)) := by
    rw [dispatchByte_of_no_restart (restartsFrame_of_false hc), transition, hst]
    exact if_pos rfl
  exact feedingGives_cons_quiet hl hb rfl h

theorem feedingGives_command (h : feedingGives bs (s.withEngine (afterCommand s.eng cmd)) st es) :
    feedingGives (s.cfg.startByte :: cmd :: bs) s st es :=
  feedingGives_start hr (feedingGives_cons_quiet hr.1 (dispatchByte_of_no_restart (restartsFrame_of_false hr.2.2)) rfl h)

/-- After START and CMD the next byte is read as LEN. -/
theorem feedingGives_length (hlen : readLength len (s.withEngine (afterCommand s.eng cmd)) = .next t)
    (he : t.events = s.events ++ es) (h : feedingGives bs t st fs) :
    feedingGives (s.cfg.startByte :: cmd :: len :: bs) s st (es ++ fs) := by
  have hb : dispatchByte len (s.withEngine (afterCommand s.eng cmd)) = .next t :=
    (dispatchByte_of_no_restart (s := s.withEngine (afterCommand s.eng cmd)) (restartsFrame_of_false hr.2.2)).trans hlen
  exact feedingGives_command hr (feedingGives_cons hr.1 hb he h)

/-- A LEN within the capacity emits nothing (R104, R105). -/
theorem feedingGives_lengthInCapacity (hlen : len.toNat ≤ s.eng.cap.toNat)
    (h : feedingGives bs (s.withEngine (afterLength s.eng cmd len)) st es) :
    feedingGives (s.cfg.startByte :: cmd :: len :: bs) s st es :=
  feedingGives_length (es := []) hr (readLength_afterCommand hlen) (List.append_nil _).symm h

/-- A LEN above the capacity ends the frame with NAK (R104). -/
theorem feedingGives_lengthOverCapacity (hlen : s.eng.cap.toNat < len.toNat) :
    feedingGives [s.cfg.startByte, cmd, len] s .idle [.outByte s.cfg.nakByte] :=
  feedingGives_length hr (readLength_of_overCapacity hlen) rfl (feedingGives_nil _)

end Header

/-! ### The body of a frame: data and checksum bytes (R106 to R108) -/

/-- The parser is past LEN, its message within the buffer. -/
def Engine.inBody (e : Engine) : Prop :=
  e.msgLen.toNat ≤ e.cap.toNat ∧
    ((e.st = .readData ∧ e.rxCount.toNat < e.msgLen.toNat ∧ e.crcCount = 0) ∨ e.st = .readChecksum)

/-- The most bytes that the frame being received can still take: CMD, LEN, the data bytes and two checksum bytes, less
what has come. Past LEN it is the exact number. -/
def Engine.bytesLeft (e : Engine) : Nat :=
  match e.st with
  | .idle => 0
  | .readCommand => e.cap.toNat + 4
  | .readLength => e.cap.toNat + 3
  | .readData => e.msgLen.toNat - e.rxCount.toNat + 2
  | .readChecksum => if e.crcCount = 0 then 2 else 1

theorem Engine.bytesLeft_of_idle {e : Engine} (h : e.st = .idle) : e.bytesLeft = 0 := by
  simp only [Engine.bytesLeft, h]

theorem Engine.bytesLeft_of_readCommand {e : Engine} (h : e.st = .readCommand) : e.bytesLeft = e.cap.toNat + 4 := by
  simp only [Engine.bytesLeft, h]

theorem Engine.bytesLeft_of_readLength {e : Engine} (h : e.st = .readLength) : e.bytesLeft = e.cap.toNat + 3 := by
  simp only [Engine.bytesLeft, h]

theorem Engine.bytesLeft_of_readData {e : Engine} (h : e.st = .readData) :
    e.bytesLeft = e.msgLen.toNat - e.rxCount.toNat + 2 := by
  simp only [Engine.bytesLeft, h]

theorem Engine.bytesLeft_of_readChecksum {e : Engine} (h : e.st = .readChecksum) :
    e.bytesLeft = if e.crcCount = 0 then 2 else 1 := by
  simp only [Engine.bytesLeft, h]

/-- Before CRC_LO both checksum bytes are still to come. -/
theorem Engine.bytesLeft_of_crcLo {e : Engine} (h : e.st = .readChecksum) (hcrc : e.crcCount = 0) : e.bytesLeft = 2 :=
  (bytesLeft_of_readChecksum h).trans (if_pos hcrc)

/-- After CRC_LO only CRC_HI is still to come. -/
theorem Engine.bytesLeft_of_crcHi {e : Engine} (h : e.st = .readChecksum) (hcrc : e.crcCount ≠ 0) : e.bytesLeft = 1 :=
  (bytesLeft_of_readChecksum h).trans (if_neg hcrc)

theorem Engine.bytesLeft_le_two {e : Engine} (h : e.st = .readChecksum) : e.bytesLeft ≤ 2 := by
  rw [bytesLeft_of_readChecksum h]
  split <;> decide

/-- Outside `Idle` the frame has a byte left. -/
theorem Engine.idle_of_bytesLeft_eq_zero {e : Engine} (h : e.bytesLeft = 0) : e.st = .idle := by
  cases hst : e.st with
  | idle => rfl
  | readCommand => rw [bytesLeft_of_readCommand hst] at h; cases h
  | readLength => rw [bytesLeft_of_readLength hst] at h; cases h
  | readData => rw [bytesLeft_of_readData hst] at h; cases h
  | readChecksum => rw [bytesLeft_of_readChecksum hst] at h; split at h <;> cases h

theorem Engine.inBody.not_idle {e : Engine} (h : e.inBody) : e.st ≠ .idle := by
  rcases h with ⟨-, ⟨hst, -⟩ | hst⟩ <;> simp [hst]

/-- The registers after a data byte (R106). -/
def afterData (e : Engine) (b : Byte) : Engine :=
  { e with payload := e.payload.put e.rxCount.toNat b, rxCount := e.rxCount + 1,
           st := if e.rxCount + 1 = e.msgLen then .readChecksum else e.st }

/-- A data byte is one byte less to come, whether or not it is the last one. -/
theorem afterData_inBody {e : Engine} (hst : e.st = .readData) (hcap : e.msgLen.toNat ≤ e.cap.toNat)
    (hrx : e.rxCount.toNat < e.msgLen.toNat) (hcrc : e.crcCount = 0) (b : Byte) :
    (afterData e b).inBody ∧ (afterData e b).bytesLeft + 1 = e.bytesLeft := by
  rw [Engine.bytesLeft_of_readData hst]
  by_cases hlast : e.rxCount + 1 = e.msgLen
  · have hst' : (afterData e b).st = .readChecksum := if_pos hlast
    refine ⟨⟨hcap, .inr hst'⟩, ?_⟩
    rw [Engine.bytesLeft_of_crcLo hst' hcrc]
    bv_omega
  · have hst' : (afterData e b).st = .readData := (if_neg hlast).trans hst
    have hcount : (afterData e b).rxCount.toNat = e.rxCount.toNat + 1 := by simp only [afterData]; bv_omega
    have hmore : e.rxCount.toNat + 1 < e.msgLen.toNat := by bv_omega
    refine ⟨⟨hcap, .inl ⟨hst', hcount ▸ hmore, hcrc⟩⟩, ?_⟩
    rw [Engine.bytesLeft_of_readData hst', hcount]
    simp only [afterData]
    omega

/-- A byte past LEN is one byte less to come: it ends the frame, or emits nothing and stays past LEN. -/
theorem dispatchByte_inBody (h : s.eng.inBody) (hc : s.cfg.midframeResync = false) (b : Byte) :
    ∃ t, dispatchByte b s = .next t ∧ t.eng.bytesLeft + 1 = s.eng.bytesLeft ∧
      (t.eng.st = .idle ∨ t.eng.inBody ∧ t.events = s.events) := by
  rw [dispatchByte_of_no_restart (restartsFrame_of_false hc)]
  obtain ⟨hcap, ⟨hst, hrx, hcrc⟩ | hst⟩ := h
  · obtain ⟨hbody, hleft⟩ := afterData_inBody hst hcap hrx hcrc b
    rw [transition, hst]
    exact ⟨_, readData_ok (hrx.trans_le hcap), hleft, .inr ⟨hbody, rfl⟩⟩
  · have hone : (1 : BitVec 2) ≠ 0 := by decide
    by_cases hcrc : s.eng.crcCount = 0
    · rw [transition, hst, Engine.bytesLeft_of_crcLo hst hcrc]
      refine ⟨_, if_pos hcrc, ?_, .inr ⟨⟨hcap, .inr hst⟩, rfl⟩⟩
      exact congrArg (· + 1) (Engine.bytesLeft_of_crcHi hst hone)
    · rw [transition, hst, Engine.bytesLeft_of_crcHi hst hcrc]
      refine ⟨_, (if_neg hcrc).trans (readCrcHi_ok hcap), ?_, .inl rfl⟩
      exact congrArg (· + 1) (Engine.bytesLeft_of_idle rfl)

/-- Fewer bytes than the frame has left leave the parser inside it, with nothing emitted. -/
theorem feedingGives_partOfBody {bs : List Byte} (h : s.eng.inBody) (hl : s.eng.live = true)
    (hc : s.cfg.midframeResync = false) (hlen : bs.length < s.eng.bytesLeft) :
    ∃ st, st ≠ .idle ∧ feedingGives bs s st [] := by
  induction bs generalizing s with
  | nil => exact ⟨_, h.not_idle, feedingGives_nil s⟩
  | cons b bs ih =>
    obtain ⟨t, ht, hleft, hidle | ⟨hbody, hev⟩⟩ := dispatchByte_inBody h hc b
    · rw [Engine.bytesLeft_of_idle hidle] at hleft
      simp only [List.length_cons] at hlen
      omega
    · obtain ⟨hcfg, -, -, -, hlive, -⟩ := dispatchByte_frame ht
      obtain ⟨st, hst, hfeed⟩ := ih hbody (hlive.trans hl) (hcfg ▸ hc) (by simp only [List.length_cons] at hlen; omega)
      exact ⟨st, hst, feedingGives_cons_quiet hl ht hev hfeed⟩

/-- As many bytes as the frame has left end it in `Idle`. -/
theorem feedingGives_restOfBody {bs : List Byte} (h : s.eng.inBody) (hl : s.eng.live = true)
    (hc : s.cfg.midframeResync = false) (hlen : bs.length = s.eng.bytesLeft) : ∃ es, feedingGives bs s .idle es := by
  induction bs generalizing s with
  | nil => exact absurd (Engine.idle_of_bytesLeft_eq_zero hlen.symm) h.not_idle
  | cons b bs ih =>
    obtain ⟨t, ht, hleft, hnext⟩ := dispatchByte_inBody h hc b
    obtain ⟨es, he⟩ := dispatchByte_events ht
    obtain ⟨hcfg, -, -, -, hlive, -⟩ := dispatchByte_frame ht
    have hlen' : bs.length = t.eng.bytesLeft := by simp only [List.length_cons] at hlen; omega
    rcases hnext with hidle | ⟨hbody, -⟩
    · rw [Engine.bytesLeft_of_idle hidle, List.length_eq_zero_iff] at hlen'
      subst hlen'
      exact ⟨es ++ [], feedingGives_cons hl ht he (hidle ▸ feedingGives_nil t)⟩
    · obtain ⟨fs, hfeed⟩ := ih hbody (hlive.trans hl) (hcfg ▸ hc) hlen'
      exact ⟨es ++ fs, feedingGives_cons hl ht he hfeed⟩

theorem afterLength_inBody {e : Engine} {cmd len : Byte} (h : len.toNat ≤ e.cap.toNat) : (afterLength e cmd len).inBody := by
  by_cases hzero : len = 0
  · exact ⟨h, .inr (if_pos hzero)⟩
  · have hpos : 0 < len.toNat := by bv_omega
    exact ⟨h, .inl ⟨if_neg hzero, hpos, rfl⟩⟩

theorem afterLength_bytesLeft {e : Engine} {cmd len : Byte} : (afterLength e cmd len).bytesLeft = len.toNat + 2 := by
  by_cases hzero : len = 0
  · rw [Engine.bytesLeft_of_crcLo (if_pos hzero) rfl, hzero]
    rfl
  · rw [Engine.bytesLeft_of_readData (if_neg hzero)]
    rfl

/-- Settles O47: the header's three bytes, then the bytes left after LEN, which number `LEN + 2`. -/
theorem lengthByteFixesTheFrameLength : Obligations.LengthByteFixesTheFrameLength := by
  refine fun s cmd len rest hr => ⟨fun hlen hrest => ?_, feedingGives_lengthOverCapacity hr⟩
  have hbody : (s.withEngine (afterLength s.eng cmd len)).eng.inBody := afterLength_inBody hlen
  constructor
  · obtain ⟨es, h⟩ := feedingGives_restOfBody hbody hr.1 hr.2.2 (hrest.trans afterLength_bytesLeft.symm)
    exact ⟨es, feedingGives_lengthInCapacity hr hlen h⟩
  · intro n hn
    match n with
    | 0 => exact ⟨.readCommand, nofun, feedingGives_start hr (feedingGives_nil _)⟩
    | 1 => exact ⟨.readLength, nofun, feedingGives_command hr (feedingGives_nil _)⟩
    | n + 2 =>
      have hpart : (rest.take n).length < (afterLength s.eng cmd len).bytesLeft := by
        rw [List.length_take, afterLength_bytesLeft]
        omega
      obtain ⟨st, hst, h⟩ := feedingGives_partOfBody hbody hr.1 hr.2.2 hpart
      exact ⟨st, hst, feedingGives_lengthInCapacity hr hlen h⟩

/-! ### Back to `Idle` (R22) -/

theorem Engine.invariant.inBody {e : Engine} (h : e.invariant) (hst : e.st = .readData ∨ e.st = .readChecksum) :
    e.inBody := by
  obtain ⟨⟨hdata, hcheck, -, -⟩, hcrc, -, -⟩ := h
  rcases hst with hst | hst
  · obtain ⟨-, hcap, hrx⟩ := hdata hst
    exact ⟨hcap, .inl ⟨hst, hrx, hcrc hst⟩⟩
  · exact ⟨(hcheck hst).1, .inr hst⟩

theorem Engine.invariant.bytesLeft_le {e : Engine} (h : e.invariant) : e.bytesLeft ≤ e.cap.toNat + 4 := by
  obtain ⟨⟨hdata, -⟩, -⟩ := h
  cases hst : e.st with
  | idle => rw [Engine.bytesLeft_of_idle hst]; omega
  | readCommand => exact (Engine.bytesLeft_of_readCommand hst).le
  | readLength => rw [Engine.bytesLeft_of_readLength hst]; omega
  | readData =>
    obtain ⟨-, hcap, -⟩ := hdata hst
    rw [Engine.bytesLeft_of_readData hst]
    omega
  | readChecksum => have htwo := Engine.bytesLeft_le_two hst; omega

/-- Outside `Idle` every byte brings the end of the frame nearer. -/
theorem dispatchByte_bytesLeft_lt (h : s.eng.invariant) (hc : s.cfg.midframeResync = false) (hst : s.eng.st ≠ .idle)
    (b : Byte) : ∃ t, dispatchByte b s = .next t ∧ t.eng.bytesLeft < s.eng.bytesLeft := by
  have hdispatch : dispatchByte b s = transition b s := dispatchByte_of_no_restart (restartsFrame_of_false hc)
  cases hs : s.eng.st with
  | idle => exact absurd hs hst
  | readCommand =>
    rw [hdispatch, transition, hs, Engine.bytesLeft_of_readCommand hs]
    exact ⟨_, rfl, (Engine.bytesLeft_of_readLength rfl).trans_lt (Nat.lt_succ_self _)⟩
  | readLength =>
    rw [hdispatch, transition, hs, Engine.bytesLeft_of_readLength hs]
    rcases readLength_cases b s with ⟨-, e⟩ | ⟨-, e⟩ | ⟨-, hcap, e⟩
    · exact ⟨_, e, (Engine.bytesLeft_of_idle rfl).trans_lt (by omega)⟩
    · exact ⟨_, e, (Engine.bytesLeft_le_two rfl).trans_lt (by omega)⟩
    · exact ⟨_, e, (Engine.bytesLeft_of_readData rfl).trans_lt (by simp only [State.withEngine_eng]; omega)⟩
  | readData =>
    obtain ⟨t, ht, hleft, -⟩ := dispatchByte_inBody (h.inBody (.inl hs)) hc b
    exact ⟨t, ht, by omega⟩
  | readChecksum =>
    obtain ⟨t, ht, hleft, -⟩ := dispatchByte_inBody (h.inBody (.inr hs)) hc b
    exact ⟨t, ht, by omega⟩

/-- With no fewer bytes than the frame can still take, a first part of them ends it. -/
theorem feedingGives_idle_of_bytesLeft_le {bs : List Byte} (h : s.eng.invariant) (hl : s.eng.live = true)
    (hc : s.cfg.midframeResync = false) (hlen : s.eng.bytesLeft ≤ bs.length) :
    ∃ n es, n ≤ bs.length ∧ feedingGives (bs.take n) s .idle es := by
  induction bs generalizing s with
  | nil =>
    have hidle := Engine.idle_of_bytesLeft_eq_zero (Nat.le_zero.1 hlen)
    exact ⟨0, [], Nat.zero_le _, hidle ▸ feedingGives_nil s⟩
  | cons b bs ih =>
    by_cases hst : s.eng.st = .idle
    · exact ⟨0, [], Nat.zero_le _, hst ▸ feedingGives_nil s⟩
    · obtain ⟨t, ht, hlt⟩ := dispatchByte_bytesLeft_lt h hc hst b
      obtain ⟨es, he⟩ := dispatchByte_events ht
      obtain ⟨hcfg, -, -, -, hlive, -⟩ := dispatchByte_frame ht
      have hlen' : t.eng.bytesLeft ≤ bs.length := by simp only [List.length_cons] at hlen; omega
      obtain ⟨n, fs, hn, hfeed⟩ := ih (dispatchByte_invariant h ht) (hlive.trans hl) (hcfg ▸ hc) hlen'
      exact ⟨n + 1, es ++ fs, Nat.succ_le_succ hn, feedingGives_cons hl ht he hfeed⟩

/-- Settles O50: under the invariant a frame can take at most `cap + 4` bytes more. -/
theorem parserReturnsToIdle : Obligations.ParserReturnsToIdle := fun _ _ h hl hc hlen =>
  feedingGives_idle_of_bytesLeft_le h hl hc (h.bytesLeft_le.trans_eq hlen.symm)

end Sys2Proof.Machine
end

section
/-! SUPPORT. The checksum family: the table form of the update equals the bit-serial form (40_checksum.md R81), the laws
of `crc16` (R82), and the CHECKSUM operation (R83). -/

namespace Sys2Proof.Machine

/-! ### The table form of the update (R81) -/

theorem crcTable_length : crcTable.length = 256 := by decide +kernel

/-- The printed entries, each against the bit-serial step of its index. -/
theorem crcTableEntry_eq_crcStep (i : Byte) : crcTableEntry i = crcStep 0 i := by
  revert i
  decide +kernel

/-- A 16-bit value is its two bytes, which share no bit. -/
theorem lowByte_xor_highByte (c : Half) : zext16 (lowByte c) ^^^ (zext16 (highByte c) <<< 8) = c := by
  ext i hi
  by_cases h : i < 8
  · simp [zext16, lowByte, highByte, h, BitVec.getLsbD_eq_getElem hi]
  · have hsum : 8 + (i - 8) = i := by omega
    have hbyte : i - 8 < 8 := by omega
    simp [zext16, lowByte, highByte, h, hsum, hbyte, BitVec.getLsbD_eq_getElem hi]

/-- The high byte is shifted out. -/
theorem zext16_lowByte_shiftLeft (c : Half) : zext16 (lowByte c) <<< 8 = c <<< 8 := by
  ext i hi
  by_cases h : i < 8
  · simp [h]
  · have hbyte : i - 8 < 8 := by omega
    have hword : i - 8 < 16 := by omega
    simp [zext16, lowByte, h, hbyte, hword]

/-- While no set bit reaches bit 15, a pass only shifts. -/
theorem crcShifts_of_lt {n : Nat} {c : Half} (h : c.toNat * 2 ^ n < 2 ^ 16) : crcShifts n c = c <<< n := by
  induction n generalizing c with
  | zero => simp [crcShifts]
  | succ n ih =>
    have hdouble : c.toNat * 2 * 2 ^ n < 2 ^ 16 := by rwa [Nat.mul_assoc, ← Nat.pow_succ']
    have hc : c.toNat * 2 < 2 ^ 16 := (Nat.le_mul_of_pos_right _ (Nat.two_pow_pos n)).trans_lt hdouble
    have hbit : c.getLsbD 15 = false := Nat.testBit_lt_two_pow (by omega)
    have hshift : (c <<< 1).toNat = c.toNat * 2 := by
      rw [BitVec.toNat_shiftLeft, Nat.shiftLeft_eq, Nat.mod_eq_of_lt hc]
    have hpass : crcShift c = c <<< 1 := if_neg (ne_true_of_eq_false hbit)
    rw [crcShifts, hpass, ih (by rwa [hshift]), ← BitVec.shiftLeft_add, Nat.add_comm]

/-- The low byte of the register takes no part in the division: eight passes only move it up. -/
theorem crcStep_zext16_zero (lo : Byte) : crcStep (zext16 lo) 0 = zext16 lo <<< 8 := by
  have hlo : (zext16 lo).toNat * 2 ^ 8 < 2 ^ 16 := by
    have := lo.isLt
    simp [zext16]
    omega
  have henter : zext16 lo ^^^ (zext16 0 <<< 8) = zext16 lo := by simp [zext16]
  rw [crcStep, henter, crcShifts_of_lt hlo]

/-- The high byte of the register and the byte of the message enter at the same place (R80). -/
theorem crcStep_xor_highByte (c : Half) (hi b : Byte) :
    crcStep (c ^^^ (zext16 hi <<< 8)) b = crcStep c (hi ^^^ b) := by
  simp [crcStep, zext16, BitVec.shiftLeft_xor_distrib, BitVec.xor_assoc]

/-- By linearity the low byte moves up, and the rest is the step of the high byte and the message byte from 0. -/
theorem crcStepByTable_eq_crcStep (c : Half) (b : Byte) : crcStepByTable c b = crcStep c b := by
  have hsplit : crcStep (zext16 (lowByte c)) (highByte c ^^^ b) =
      crcStep (zext16 (lowByte c)) 0 ^^^ crcStep 0 (highByte c ^^^ b) := by
    simpa using crcStep_xor (zext16 (lowByte c)) 0 0 (highByte c ^^^ b)
  calc crcStepByTable c b
      = (c <<< 8) ^^^ crcStep 0 (highByte c ^^^ b) := by rw [crcStepByTable, crcTableEntry_eq_crcStep]
    _ = crcStep (zext16 (lowByte c)) 0 ^^^ crcStep 0 (highByte c ^^^ b) := by
      rw [crcStep_zext16_zero, zext16_lowByte_shiftLeft]
    _ = crcStep (zext16 (lowByte c) ^^^ (zext16 (highByte c) <<< 8)) b := by rw [crcStep_xor_highByte, hsplit]
    _ = crcStep c b := by rw [lowByte_xor_highByte]

/-- Settles O24: the table is evaluated index by index, and linearity carries it to every register value. -/
theorem tableFormIsTheBitSerialForm : Obligations.TableFormIsTheBitSerialForm :=
  ⟨crcTable_length, crcTableEntry_eq_crcStep, crcStepByTable_eq_crcStep⟩

/-! ### The laws of `crc16` (R82) -/

/-- The check value of CRC-16/CCITT-FALSE, over the ASCII digits 1 to 9. -/
theorem crc16_conformance :
    crc16 [0x31, 0x32, 0x33, 0x34, 0x35, 0x36, 0x37, 0x38, 0x39] = 0x29B1 := by decide +kernel

/-- What decodes is well formed, so its count fits the 16-bit operand (R68). -/
theorem decode_checksum_length_le {bs data rest : List Byte} (h : decode bs = .ok (.checksum data, rest)) :
    data.length ≤ 65535 := by
  obtain ⟨hwf, -⟩ := encodeOfDecodeGivesTheBytes bs rest _ h
  exact wellFormed_checksum.1 hwf

/-- Settles O23: the empty input leaves the initial value, the vector evaluates, and `crc16` is a fold. -/
theorem crcLaws : Obligations.CrcLaws :=
  ⟨crc16_nil, crc16_conformance, crc16_append, fun _ _ _ => decode_checksum_length_le⟩

/-! ### The CHECKSUM operation (R83) -/

/-- An operation that only emits completes with the registers as they were. -/
theorem completesWith_of_emit {i : Instr} {s : State} {es : List OutEvent} (h : exec i s = .next (s.emit es)) :
    completesWith i s s.eng es :=
  ⟨s.emit es, h, rfl, rfl, rfl, rfl, rfl, rfl⟩

theorem checksum_completesWith {s : State} (hl : s.eng.live = true) (data : List Byte) :
    completesWith (.checksum data) s s.eng [.checksumResult (crc16 data)] :=
  completesWith_of_emit (execChecksum_eq_next.2 ⟨hl, rfl⟩)

/-- Settles O22: CHECKSUM only emits, and for no data the checksum is the initial value. -/
theorem checksumReportsTheCrc : Obligations.ChecksumReportsTheCrc := fun data _ =>
  ⟨fun hl => checksum_completesWith hl data, fun hl => checksum_completesWith hl [], whenLive_of_not_live⟩

end Sys2Proof.Machine
end

section
/-! SUPPORT. The encoder family: the frame that SEND transmits (41_encoder.md R90, R91, R95), the two marker operations
(R92, R93), and the link: a transmitted frame, fed to a peer, is delivered and acknowledged (R163). -/

namespace Sys2Proof.Machine

variable {s : State}

/-! ### The frame (R91, R95) -/

/-- The parts of a frame, LEN as the number of bytes sent. -/
theorem frameBytes_eq (k : Config) (cmd : Byte) (data : List Byte) (maxLen : Nat) :
    frameBytes k cmd data maxLen = k.startByte :: cmd :: BitVec.ofNat 8 (min data.length maxLen) ::
      (data.take maxLen ++ [lowByte (crc16 (data.take maxLen)), highByte (crc16 (data.take maxLen))]) := by
  rw [Nat.min_comm, ← List.length_take]
  rfl

/-- Data cut beforehand gives the same frame. -/
theorem frameBytes_take (k : Config) (cmd : Byte) (data : List Byte) (maxLen : Nat) :
    frameBytes k cmd (data.take maxLen) maxLen = frameBytes k cmd data maxLen := by
  simp only [frameBytes, List.take_take, Nat.min_self]

/-- Settles O18: the header is three bytes, so a frame's byte `3 + j` is byte `j` of the data and the checksum. -/
theorem frameBytesLayout : Obligations.FrameBytesLayout := by
  intro k cmd data maxLen t _ hmax ht
  have htake : data.take maxLen = data.take t := by rw [ht, List.take_eq_take_iff]; omega
  have hlen : (data.take t).length = t := by rw [List.length_take]; omega
  have htail (j : Nat) : (frameBytes k cmd data maxLen)[3 + j]? =
      (data.take t ++ [lowByte (crc16 (data.take t)), highByte (crc16 (data.take t))])[j]? := by
    rw [frameBytes_eq, htake, Nat.add_comm]
    rfl
  rw [show 4 + t = 3 + (t + 1) by omega, htail, htail]
  refine ⟨?_, rfl, rfl, ⟨BitVec.ofNat 8 t, by rw [frameBytes_eq, ht]; rfl, ?_⟩, fun j hj => ?_, ?_, ?_⟩
  · simp only [frameBytes_eq, htake, List.length_cons, List.length_append, hlen, List.length_nil]
    omega
  · exact Nat.mod_eq_of_lt (by omega)
  · rw [htail, List.getElem?_append_left (by omega), List.getElem?_take_of_lt hj]
  · rw [List.getElem?_append_right hlen.le, hlen, Nat.sub_self]
    rfl
  · rw [List.getElem?_append_right (by omega), hlen, Nat.add_sub_cancel_left]
    rfl

/-! ### The operations (R90, R92, R93) -/

/-- Settles O17: SEND only emits, and what it emits is the frame. -/
theorem sendEmitsOneFrame : Obligations.SendEmitsOneFrame := by
  rintro cmd data d s rfl
  refine ⟨fun hl => ?_, whenLive_of_not_live⟩
  have hsend := completesWith_of_emit (i := .send cmd data) (execSend_eq_next.2 ⟨hl, rfl⟩)
  rwa [frameBytes_eq] at hsend

/-- Settles O19: SEND reads its data through `frameBytes` alone, which cuts it. -/
theorem truncationIsSilent : Obligations.TruncationIsSilent := by
  intro cmd data s
  constructor
  · change execSend cmd data s = execSend cmd (data.take s.eng.cap.toNat) s
    rw [execSend, execSend, frameBytes_take]
  · intro hlong
    rw [frameBytes_eq, Nat.min_eq_right hlong.le, BitVec.ofNat_toNat, BitVec.setWidth_eq]
    rfl

/-- Settles O20: both operations only emit, one byte each. -/
theorem sendAckAndSendNakEmitTheirMarker : Obligations.SendAckAndSendNakEmitTheirMarker := fun _ =>
  ⟨fun hl => ⟨completesWith_of_emit (execSendAck_eq_next.2 ⟨hl, rfl⟩),
      completesWith_of_emit (execSendNak_eq_next.2 ⟨hl, rfl⟩)⟩,
    fun hl => ⟨whenLive_of_not_live hl, whenLive_of_not_live hl⟩⟩

/-! ### Receiving the data bytes (R106) -/

/-- The parser is past LEN: `n` data bytes and both checksum bytes of a message within the buffer are still to come. -/
def Engine.awaits (e : Engine) (n : Nat) : Prop :=
  e.msgLen.toNat ≤ e.cap.toNat ∧ e.rxCount.toNat + n = e.msgLen.toNat ∧ e.crcCount = 0 ∧ e.payload.wf ∧
    e.st = if n = 0 then .readChecksum else .readData

/-- The data bytes received so far. -/
def Engine.received (e : Engine) : List Byte := (List.range e.rxCount.toNat).map e.payload.get

/-- After LEN the whole message is to come. -/
theorem afterLength_awaits {e : Engine} {cmd len : Byte} (h : len.toNat ≤ e.cap.toNat) :
    (afterLength e cmd len).awaits len.toNat := by
  refine ⟨h, Nat.zero_add _, rfl, Memory.zeros_wf, ?_⟩
  simp only [afterLength, BitVec.toNat_eq]
  rfl

theorem afterData_rxCount {e : Engine} {n : Nat} (h : e.awaits (n + 1)) (b : Byte) :
    (afterData e b).rxCount.toNat = e.rxCount.toNat + 1 := by
  obtain ⟨-, hcount, -⟩ := h
  simp only [afterData]
  bv_omega

/-- A data byte is one less to come. -/
theorem afterData_awaits {e : Engine} {n : Nat} (h : e.awaits (n + 1)) (b : Byte) : (afterData e b).awaits n := by
  have hrx := afterData_rxCount h b
  obtain ⟨hcap, hcount, hcrc, hwf, hst⟩ := h
  refine ⟨hcap, ?_, hcrc, Memory.put_wf hwf _ _, ?_⟩
  · rw [hrx]
    exact (Nat.add_right_comm _ _ _).trans hcount
  · have hlast : e.rxCount + 1 = e.msgLen ↔ n = 0 := by bv_omega
    simp only [afterData, hlast, hst, Nat.succ_ne_zero, if_false]

/-- A data byte is stored after those received before it. -/
theorem received_afterData {e : Engine} {n : Nat} (h : e.awaits (n + 1)) (b : Byte) :
    (afterData e b).received = e.received ++ [b] := by
  obtain ⟨-, -, -, hwf, -⟩ := id h
  rw [Engine.received, afterData_rxCount h, List.range_succ, List.map_append]
  congr 1
  · refine List.map_congr_left fun j hj => ?_
    exact (Memory.get_put hwf _ b j).trans (if_neg (List.mem_range.1 hj).ne)
  · exact congrArg (· :: []) ((Memory.get_put hwf _ b _).trans (if_pos rfl))

/-! ### Receiving a whole frame (R101 to R108) -/

/-- What the last byte of a frame with data `q` and received checksum `c` emits (R108). -/
def frameVerdict (k : Config) (cmd len : Byte) (q : List Byte) (c : Half) : List OutEvent :=
  if c = crc16 q then [.messageDecoded cmd len q, .outByte k.ackByte] else [.outByte k.nakByte]

variable {lo hi : Byte}

/-- The registers after CRC_LO (R107). -/
def afterCrcLo (e : Engine) (b : Byte) : Engine := { e with rxCrc := withLowByte e.rxCrc b, crcCount := 1 }

theorem dispatchByte_crcLo (hst : s.eng.st = .readChecksum) (hcrc : s.eng.crcCount = 0)
    (hc : s.cfg.midframeResync = false) : dispatchByte lo s = .next (s.withEngine (afterCrcLo s.eng lo)) := by
  rw [dispatchByte_of_no_restart (restartsFrame_of_false hc), transition, hst]
  exact if_pos hcrc

theorem dispatchByte_crcHi (hst : s.eng.st = .readChecksum) (hcrc : s.eng.crcCount ≠ 0)
    (hcap : s.eng.msgLen.toNat ≤ s.eng.cap.toNat) (hc : s.cfg.midframeResync = false) :
    dispatchByte hi s = .next ((s.withEngine (afterCrcHi s.eng hi)).emit
      (frameVerdict s.cfg s.eng.msgCmd s.eng.msgLen (receivedData s.eng) (withHighByte s.eng.rxCrc hi))) := by
  rw [dispatchByte_of_no_restart (restartsFrame_of_false hc), transition, hst]
  exact (if_neg hcrc).trans (readCrcHi_ok hcap)

/-- The two checksum bytes end the frame with its verdict (R107, R108). -/
theorem feedingGives_checksum (h : s.eng.awaits 0) (hl : s.eng.live = true) (hc : s.cfg.midframeResync = false) :
    feedingGives [lo, hi] s .idle (frameVerdict s.cfg s.eng.msgCmd s.eng.msgLen s.eng.received (half lo hi)) := by
  obtain ⟨hcap, hcount, hcrc, -, hst⟩ := h
  have hreceived : s.eng.received = receivedData s.eng := by rw [Engine.received, receivedData, ← hcount]; rfl
  have hhi := dispatchByte_crcHi (s := s.withEngine (afterCrcLo s.eng lo)) (hi := hi) hst
    (by decide : (1 : BitVec 2) ≠ 0) hcap hc
  have hend := feedingGives_cons (s := s.withEngine (afterCrcLo s.eng lo)) hl hhi rfl (feedingGives_nil _)
  rw [List.append_nil] at hend
  rw [hreceived, ← withHighByte_withLowByte s.eng.rxCrc]
  exact feedingGives_cons_quiet hl (dispatchByte_crcLo hst hcrc hc) rfl hend

/-- What is left of the data and the two checksum bytes end the frame with its verdict. -/
theorem feedingGives_body {bs : List Byte} (h : s.eng.awaits bs.length) (hl : s.eng.live = true)
    (hc : s.cfg.midframeResync = false) : feedingGives (bs ++ [lo, hi]) s .idle
      (frameVerdict s.cfg s.eng.msgCmd s.eng.msgLen (s.eng.received ++ bs) (half lo hi)) := by
  induction bs generalizing s with
  | nil =>
    rw [List.append_nil]
    exact feedingGives_checksum h hl hc
  | cons b bs ih =>
    obtain ⟨hcap, hcount, -, -, hst⟩ := id h
    have hin : s.eng.rxCount.toNat < s.eng.cap.toNat := by simp only [List.length_cons] at hcount; omega
    have hb : dispatchByte b s = .next (s.withEngine (afterData s.eng b)) := by
      rw [dispatchByte_of_no_restart (restartsFrame_of_false hc), transition, hst]
      exact readData_ok hin
    have hrest := ih (s := s.withEngine (afterData s.eng b)) (afterData_awaits h b) hl hc
    rw [State.withEngine_eng, received_afterData h, List.append_assoc] at hrest
    exact feedingGives_cons_quiet hl hb rfl hrest

/-- A whole frame with LEN within the capacity, whatever its bytes, ends in `Idle` with its verdict. -/
theorem feedingGives_frame {cmd len : Byte} {q : List Byte} (hr : receiving s) (hlen : q.length = len.toNat)
    (hcap : len.toNat ≤ s.eng.cap.toNat) :
    feedingGives (s.cfg.startByte :: cmd :: len :: (q ++ [lo, hi])) s .idle (frameVerdict s.cfg cmd len q (half lo hi)) :=
  feedingGives_lengthInCapacity hr hcap <|
    feedingGives_body (s := s.withEngine (afterLength s.eng cmd len)) (hlen ▸ afterLength_awaits hcap) hr.1 hr.2.2

/-! ### The link (R163) -/

/-- A frame cut to a sender's capacity, with room for it at the receiver, is delivered and answered ACK. -/
theorem feedingGives_frameBytes {cmd cap : Byte} {data : List Byte} (hr : receiving s)
    (hcap : min data.length cap.toNat ≤ s.eng.cap.toNat) :
    feedingGives (frameBytes s.cfg cmd data cap.toNat) s .idle
      [.messageDecoded cmd (BitVec.ofNat 8 (min data.length cap.toNat)) (data.take cap.toNat),
        .outByte s.cfg.ackByte] := by
  have hlen : (BitVec.ofNat 8 (min data.length cap.toNat)).toNat = min data.length cap.toNat :=
    Nat.mod_eq_of_lt (by omega)
  have hverdict := feedingGives_frame (cmd := cmd) (q := data.take cap.toNat)
    (lo := lowByte (crc16 (data.take cap.toNat))) (hi := highByte (crc16 (data.take cap.toNat))) hr
    (by rw [hlen, List.length_take, Nat.min_comm]) (hlen.trans_le hcap)
  rwa [half_lowByte_highByte, frameVerdict, if_pos rfl, ← frameBytes_eq] at hverdict

/-- In `Idle` the ACK byte is reported (R102). -/
theorem feedingGives_ack (hl : s.eng.live = true) (hst : s.eng.st = .idle) (hd : markersDistinct s.cfg) :
    feedingGives [s.cfg.ackByte] s .idle [.ackReceived .positive] := by
  obtain ⟨hstart, -, -⟩ := hd
  have hb : dispatchByte s.cfg.ackByte s = .next (s.emit [.ackReceived .positive]) := by
    rw [dispatchByte_of_no_restart (restartsFrame_of_idle hst), transition, hst]
    exact (if_neg hstart.symm).trans (if_pos rfl)
  exact feedingGives_cons hl hb rfl (hst ▸ feedingGives_nil (s.emit [.ackReceived .positive]))

/-- Settles O51: SEND adds its frame to the transmitted stream, the peer decodes it, and ACK is reported in `Idle`. -/
theorem sentFramesAreDeliveredAndAcknowledged : Obligations.SentFramesAreDeliveredAndAcknowledged := by
  intro a b cmd data hl hr hcfg hd hcap
  have hsend : exec (.send cmd data) a = .next _ := execSend_eq_next.2 ⟨hl, rfl⟩
  refine ⟨_, hsend, ⟨_, sendExtendsTheTransmittedStream _ _ _ _ hsend, ?_⟩, fun hst => feedingGives_ack hl hst hd⟩
  rw [hcfg]
  exact feedingGives_frameBytes hr hcap

end Sys2Proof.Machine
end

section
/-! SUPPORT. The decoder family: whole frames, delivered when intact (42_decoder.md R112) and rejected when a bit is flipped
(R113); every transition of the parser as a DISPATCH (R101 to R108, R111), with noise between frames (R114); what a byte
inside a frame reads of the configuration (R109, R110); and what a delivered message is (R108, R116). -/

namespace Sys2Proof.Machine

variable {s t : State} {b : Byte}

/-! ### Whole frames delivered (R112) -/

/-- Fewer than `LEN + 4` bytes after START emit nothing (R65). -/
theorem feedingGives_partOfFrame {cmd len : Byte} {rest : List Byte} {n : Nat} (hr : receiving s)
    (hcap : len.toNat ≤ s.eng.cap.toNat) (hrest : rest.length = len.toNat + 2) (hn : n < len.toNat + 4) :
    ∃ st, feedingGives ((s.cfg.startByte :: cmd :: len :: rest).take (n + 1)) s st [] := by
  obtain ⟨hfits, -⟩ := lengthByteFixesTheFrameLength s cmd len rest hr
  obtain ⟨-, hpart⟩ := hfits hcap hrest
  obtain ⟨st, -, h⟩ := hpart n hn
  exact ⟨st, h⟩

/-- The frame of data within the capacity: nothing is cut. -/
theorem frameBytes_of_le {k : Config} {cmd : Byte} {p : List Byte} {cap : Nat} (h : p.length ≤ cap) :
    frameBytes k cmd p cap = k.startByte :: cmd :: BitVec.ofNat 8 p.length ::
      (p ++ [lowByte (crc16 p), highByte (crc16 p)]) := by
  rw [frameBytes_eq, Nat.min_eq_left h, List.take_of_length_le h]

/-- LEN of data within a capacity is its length. -/
theorem ofNat_length_toNat {p : List Byte} {cap : Byte} (h : p.length ≤ cap.toNat) :
    (BitVec.ofNat 8 p.length).toNat = p.length :=
  Nat.mod_eq_of_lt (h.trans_lt cap.isLt)

/-- Settles O45: the whole frame has its verdict, and all but its last byte are `LEN + 4` bytes, START among them. -/
theorem roundTripDeliversTheMessage : Obligations.RoundTripDeliversTheMessage := by
  intro s cmd p hr hcap
  constructor
  · have hframe := feedingGives_frameBytes (cmd := cmd) (cap := s.eng.cap) (data := p) hr (Nat.min_le_right _ _)
    rwa [Nat.min_eq_left hcap, List.take_of_length_le hcap] at hframe
  · have hlen := ofNat_length_toNat hcap
    rw [frameBytes_of_le hcap, List.dropLast_eq_take]
    exact feedingGives_partOfFrame hr (hlen.trans_le hcap) (by simp [hlen]) (by simp [hlen])

/-! ### A flipped bit (R113) -/

theorem crcShifts_injective {n : Nat} {c d : Half} (h : crcShifts n c = crcShifts n d) : c = d := by
  have hzero : crcShifts n (c ^^^ d) = 0 := by rw [crcShifts_xor, h, BitVec.xor_self]; rfl
  exact BitVec.xor_eq_zero_iff.1 (crcShifts_eq_zero hzero)

/-- The step tells registers apart. -/
theorem crcStep_left_injective {c d : Half} {x : Byte} (h : crcStep c x = crcStep d x) : c = d :=
  (BitVec.xor_left_inj _).1 (crcShifts_injective h)

/-- The step tells bytes apart. -/
theorem crcStep_right_injective {c : Half} {x y : Byte} (h : crcStep c x = crcStep c y) : x = y := by
  have hshift : zext16 x <<< 8 = zext16 y <<< 8 := (BitVec.xor_right_inj _).1 (crcShifts_injective h)
  rw [← highByte_half 0 x, ← highByte_half 0 y, half, half, hshift]

theorem foldl_crcStep_injective {bs : List Byte} {c d : Half} (h : bs.foldl crcStep c = bs.foldl crcStep d) : c = d := by
  induction bs generalizing c d with
  | nil => exact h
  | cons x bs ih => exact crcStep_left_injective (ih h)

/-- The checksum tells apart data that differ in one byte. -/
theorem crc16_set_ne {p : List Byte} {i : Nat} {x y : Byte} (hx : p[i]? = some x) (hne : y ≠ x) :
    crc16 (p.set i y) ≠ crc16 p := by
  obtain ⟨hi, rfl⟩ := List.getElem?_eq_some_iff.1 hx
  intro h
  have hp : crc16 p = crc16 (p.take i ++ p[i] :: p.drop (i + 1)) := by
    rw [List.cons_getElem_drop_succ, List.take_append_drop]
  rw [hp, List.set_eq_take_append_cons_drop, if_pos hi, crc16_append, crc16_append] at h
  exact hne (crcStep_right_injective (foldl_crcStep_injective h))

/-- Another byte in place of one of the data and checksum bytes leaves a checksum that is not that of the data. -/
theorem checksum_ne_of_set {p : List Byte} {i : Nat} {x y : Byte}
    (hx : (p ++ [lowByte (crc16 p), highByte (crc16 p)])[i]? = some x) (hne : y ≠ x) :
    ∃ q lo hi, (p ++ [lowByte (crc16 p), highByte (crc16 p)]).set i y = q ++ [lo, hi] ∧ q.length = p.length ∧
      half lo hi ≠ crc16 q := by
  rcases Nat.lt_or_ge i p.length with hi | hi
  · rw [List.getElem?_append_left hi] at hx
    refine ⟨p.set i y, _, _, List.set_append_left _ _ hi, List.length_set, ?_⟩
    rw [half_lowByte_highByte]
    exact (crc16_set_ne hx hne).symm
  · rw [List.getElem?_append_right hi] at hx
    rw [List.set_append_right _ _ hi]
    match i - p.length, hx with
    | 0, hx =>
      refine ⟨p, y, _, rfl, rfl, fun h => hne ?_⟩
      rw [← Option.some.inj hx, ← h, lowByte_half]
    | 1, hx =>
      refine ⟨p, _, y, rfl, rfl, fun h => hne ?_⟩
      rw [← Option.some.inj hx, ← h, highByte_half]

theorem xor_twoPow_ne {k : Nat} (x : Byte) (hk : k < 8) : x ^^^ BitVec.twoPow 8 k ≠ x := by
  intro h
  have hbit := congrArg (·.getLsbD k) h
  simp [hk] at hbit

/-- Settles O46: the frame keeps its LEN, so its last byte gives the verdict, on a checksum that cannot match. -/
theorem singleBitCorruptionIsRejected : Obligations.SingleBitCorruptionIsRejected := by
  rintro s cmd p f j k x hr hcap rfl hj hx hk
  obtain ⟨i, rfl⟩ := Nat.exists_eq_add_of_le' hj
  rw [frameBytes_of_le hcap] at hx ⊢
  obtain ⟨q, lo, hi, hset, hq, hbad⟩ := checksum_ne_of_set hx (xor_twoPow_ne x hk)
  have hlen := ofNat_length_toNat hcap
  have hverdict := feedingGives_frame (cmd := cmd) (lo := lo) (hi := hi) hr (hq.trans hlen.symm) (hlen.trans_le hcap)
  rw [frameVerdict, if_neg hbad, ← hset] at hverdict
  exact hverdict

/-! ### One byte, as a DISPATCH (R100 to R108, R111) -/

/-- Settles O25: the `live` check is all there is. -/
theorem noByteChangesNothing : Obligations.NoByteChangesNothing := fun _ => ⟨whenLive_of_live, whenLive_of_not_live⟩

/-- A byte that restarts no frame takes the transition of the parser state. -/
theorem exec_dispatch_some (hl : s.eng.live = true) (hr : restartsFrame s b = false) :
    exec (.dispatch (some b)) s = transition b s :=
  (whenLive_of_live hl).trans (dispatchByte_of_no_restart hr)

/-- An operation that writes registers and emits completes with both. -/
theorem completesWith_of_withEngine_emit {i : Instr} {e : Engine} {es : List OutEvent}
    (h : exec i s = .next ((s.withEngine e).emit es)) : completesWith i s e es :=
  ⟨_, h, rfl, rfl, rfl, rfl, rfl, rfl⟩

/-- An operation that only writes registers completes with no event. -/
theorem completesWith_of_withEngine {i : Instr} {e : Engine} (h : exec i s = .next (s.withEngine e)) :
    completesWith i s e [] :=
  completesWith_of_withEngine_emit (by rw [h, State.emit_nil])

theorem exec_dispatch_idle (hl : s.eng.live = true) (hst : s.eng.st = .idle) :
    exec (.dispatch (some b)) s = idleByte b s := by
  rw [exec_dispatch_some hl (restartsFrame_of_idle hst), transition, hst]

/-- Settles O26: the registers of a begun frame, whose empty buffer reads 0 at every index. -/
theorem startMarkerBeginsAFrame : Obligations.StartMarkerBeginsAFrame := fun s hl hst =>
  ⟨beginFrame s.eng, completesWith_of_withEngine ((exec_dispatch_idle hl hst).trans (if_pos rfl)), rfl,
    fun _ hj => memRead_ok hj⟩

/-- In `Idle` a byte that is no marker leaves the whole state as it is. -/
theorem exec_dispatch_noise (hl : s.eng.live = true) (hst : s.eng.st = .idle)
    (hb : b ≠ s.cfg.startByte ∧ b ≠ s.cfg.ackByte ∧ b ≠ s.cfg.nakByte) : exec (.dispatch (some b)) s = .next s := by
  obtain ⟨hstart, hack, hnak⟩ := hb
  exact (exec_dispatch_idle hl hst).trans ((if_neg hstart).trans ((if_neg hack).trans (if_neg hnak)))

/-- Settles O27: the other three branches of `Idle`. -/
theorem otherBytesInIdle : Obligations.OtherBytesInIdle := by
  intro s b hl hst hstart
  have hexec := (exec_dispatch_idle (b := b) hl hst).trans (if_neg hstart)
  refine ⟨fun hack => ?_, fun hack hnak => ?_, fun hack hnak => ?_⟩
  · exact completesWith_of_emit (hexec.trans (if_pos hack))
  · exact completesWith_of_emit (hexec.trans ((if_neg hack).trans (if_pos hnak)))
  · exact completesWith_of_withEngine (exec_dispatch_noise hl hst ⟨hstart, hack, hnak⟩)

/-- Settles O49: each byte leaves the state as it is, so the next one finds the same state. -/
theorem noiseBetweenFramesIsDiscarded : Obligations.NoiseBetweenFramesIsDiscarded := by
  intro s bs hl hst hbs
  induction bs with
  | nil => rfl
  | cons b bs ih =>
    obtain ⟨hb, hrest⟩ := List.forall_mem_cons.1 hbs
    change execAll (.dispatch (some b) :: feed bs) s = _
    simp only [execAll, exec_dispatch_noise hl hst hb, ih hrest]

/-- Settles O28: the one transition of `ReadCommand`. -/
theorem commandByteIsStored : Obligations.CommandByteIsStored := by
  intro s b hl hc hst
  refine completesWith_of_withEngine ?_
  rw [exec_dispatch_some hl (restartsFrame_of_false hc), transition, hst]
  rfl

/-- Settles O29: the three branches of `ReadLength`. -/
theorem lengthByteIsBoundedByTheCapacity : Obligations.LengthByteIsBoundedByTheCapacity := by
  intro s b hl hc hst
  have hexec : exec (.dispatch (some b)) s = readLength b s := by
    rw [exec_dispatch_some hl (restartsFrame_of_false hc), transition, hst]
  rcases readLength_cases b s with ⟨hover, e⟩ | ⟨rfl, e⟩ | ⟨hne, hcap, e⟩
  · refine ⟨fun _ => completesWith_of_withEngine_emit (hexec.trans e), ?_, fun _ hcap => absurd hover (Nat.not_lt.2 hcap)⟩
    rintro rfl
    exact absurd hover (Nat.not_lt_zero _)
  · exact ⟨fun hover => absurd hover (Nat.not_lt_zero _), fun _ => completesWith_of_withEngine (hexec.trans e),
      fun hne => absurd rfl hne⟩
  · exact ⟨fun hover => absurd hover (Nat.not_lt.2 hcap), fun hzero => absurd hzero hne,
      fun _ _ => completesWith_of_withEngine (hexec.trans e)⟩

/-- The registers after a data byte differ in the payload at `rx_count` alone. -/
theorem memRead_afterData_of_ne {e : Engine} {j : Nat} (hwf : e.payload.wf) (hj : j ≠ e.rxCount.toNat) (b : Byte) :
    (afterData e b).memRead j = e.memRead j := by
  simp only [Engine.memRead, afterData, Memory.get_put hwf, if_neg hj]

/-- Settles O30: the write lands inside the buffer. -/
theorem dataByteIsStored : Obligations.DataByteIsStored := by
  intro s b hl hc hst hwf hrx hcap
  have hin : s.eng.rxCount.toNat < s.eng.cap.toNat := hrx.trans_le hcap
  have hexec : exec (.dispatch (some b)) s = .next (s.withEngine (afterData s.eng b)) := by
    rw [exec_dispatch_some hl (restartsFrame_of_false hc), transition, hst]
    exact readData_ok hin
  refine ⟨afterData s.eng b, completesWith_of_withEngine hexec, ?_, ?_, ?_, fun j hj => memRead_afterData_of_ne hwf hj b⟩
  · simp only [afterData, hst]
  · simp only [afterData]
    bv_omega
  · exact memRead_eq_ok.2 ⟨hin, by simp only [afterData, Memory.get_put hwf, if_true]⟩

/-- Settles O31: the first branch of `ReadChecksum`. -/
theorem firstChecksumByteIsTheLowByte : Obligations.FirstChecksumByteIsTheLowByte := by
  intro s b hl hc hst hcrc
  exact completesWith_of_withEngine ((whenLive_of_live hl).trans (dispatchByte_crcLo hst hcrc hc))

/-- Bytes that the first indices read as, `msg_len` of them, are the received data. -/
theorem receivedData_eq_of_memRead {e : Engine} {data : List Byte} (hlen : data.length = e.msgLen.toNat)
    (hdata : ∀ j x, data[j]? = some x → e.memRead j = .ok x) : receivedData e = data := by
  refine List.ext_getElem (by simp [receivedData, hlen]) fun j _ hj => ?_
  obtain ⟨-, hget⟩ := memRead_eq_ok.1 (hdata j data[j] (List.getElem?_eq_getElem hj))
  simp [receivedData, hget]

/-- Settles O32: the second branch of `ReadChecksum`, with its verdict. -/
theorem secondChecksumByteVerifiesTheFrame : Obligations.SecondChecksumByteVerifiesTheFrame := by
  intro s b data v hl hc hst hcrc hcap hlen hdata hv
  obtain rfl : v = withHighByte s.eng.rxCrc b := hv
  have hend := completesWith_of_withEngine_emit (i := .dispatch (some b))
    ((whenLive_of_live hl).trans (dispatchByte_crcHi (hi := b) hst hcrc hcap hc))
  rw [receivedData_eq_of_memRead hlen hdata] at hend
  refine ⟨fun hmatch => ?_, fun hmatch => ?_⟩
  · rwa [frameVerdict, if_pos hmatch] at hend
  · rwa [frameVerdict, if_neg hmatch] at hend

/-! ### What a byte inside a frame reads of the configuration (R109, R110) -/

/-- The registers after a byte outside `Idle`: no marker value enters. -/
def fieldRegisters (e : Engine) (b : Byte) : Engine :=
  match e.st with
  | .idle => e
  | .readCommand => { e with msgCmd := b, st := .readLength }
  | .readLength =>
    { e with msgLen := b,
             st := if e.cap.toNat < b.toNat then .idle else if b = 0 then .readChecksum else .readData }
  | .readData => afterData e b
  | .readChecksum => if e.crcCount = 0 then afterCrcLo e b else afterCrcHi e b

/-- The events of a byte outside `Idle`: the acknowledgment markers enter as bytes sent. -/
def fieldEvents (k : Config) (e : Engine) (b : Byte) : List OutEvent :=
  match e.st with
  | .readLength => if e.cap.toNat < b.toNat then [.outByte k.nakByte] else []
  | .readChecksum =>
    if e.crcCount = 0 then []
    else frameVerdict k e.msgCmd e.msgLen (receivedData e) (withHighByte e.rxCrc b)
  | _ => []

/-- Outside `Idle` and inside the buffer, a transition writes those registers and emits those events. -/
theorem transition_field (hst : s.eng.st ≠ .idle) (hin : ¬ s.eng.accessOutside) (b : Byte) :
    transition b s = .next ((s.withEngine (fieldRegisters s.eng b)).emit (fieldEvents s.cfg s.eng b)) := by
  unfold transition fieldRegisters fieldEvents
  cases hs : s.eng.st with
  | idle => exact absurd hs hst
  | readCommand => rw [State.emit_nil]; rfl
  | readLength =>
    rcases readLength_cases b s with ⟨hover, e⟩ | ⟨rfl, e⟩ | ⟨hne, hcap, e⟩ <;> simp only [e]
    · simp only [if_pos hover]; rfl
    · simp
    · simp only [if_neg (Nat.not_lt.2 hcap), if_neg hne, State.emit_nil]
  | readData =>
    rw [State.emit_nil]
    exact readData_ok (Nat.not_le.1 fun hrx => hin (.inl ⟨hs, hrx⟩))
  | readChecksum =>
    by_cases hcrc : s.eng.crcCount = 0
    · simp only [if_pos hcrc, State.emit_nil]; rfl
    · simp only [if_neg hcrc]
      exact readCrcHi_ok (Nat.not_lt.1 fun hlen => hin (.inr ⟨hs, hcrc, hlen⟩))

/-- No field byte starts a frame. -/
theorem fieldRegisters_st_ne_readCommand (e : Engine) (b : Byte) : (fieldRegisters e b).st ≠ .readCommand := by
  unfold fieldRegisters
  cases hst : e.st with
  | idle => simp [hst]
  | readCommand => exact nofun
  | readLength =>
    simp only
    split_ifs <;> exact nofun
  | readData =>
    simp only [afterData, hst]
    split_ifs <;> exact nofun
  | readChecksum =>
    simp only
    split_ifs
    · simp [afterCrcLo, hst]
    · exact nofun

theorem ackReceived_notMem_frameVerdict {k : Config} {cmd len : Byte} {q : List Byte} {c : Half} {a : AckKind} :
    .ackReceived a ∉ frameVerdict k cmd len q c := by
  unfold frameVerdict
  split_ifs <;> simp

/-- No field byte is reported as an acknowledgment. -/
theorem ackReceived_notMem_fieldEvents (k : Config) (e : Engine) (b : Byte) (a : AckKind) :
    .ackReceived a ∉ fieldEvents k e b := by
  unfold fieldEvents
  split
  · split_ifs <;> simp
  · split_ifs
    · simp
    · exact ackReceived_notMem_frameVerdict
  · simp

/-- Settles O34: the invariant keeps the transition inside the buffer, and its registers do not depend on the markers. -/
theorem markersInsideAFrameAreData : Obligations.MarkersInsideAFrameAreData := by
  intro s b h hl hc hst
  have hexec (c : Config) (hc : c.midframeResync = false) :
      exec (.dispatch (some b)) { s with cfg := c } =
        .next (({ s with cfg := c }.withEngine (fieldRegisters s.eng b)).emit (fieldEvents c s.eng b)) :=
    (exec_dispatch_some (s := { s with cfg := c }) hl (restartsFrame_of_false hc)).trans
      (transition_field (s := { s with cfg := c }) hst h.not_accessOutside b)
  exact ⟨_, _, hexec s.cfg hc, rfl, fieldRegisters_st_ne_readCommand _ _, ackReceived_notMem_fieldEvents _ _ _,
    fun c hc => ⟨_, hexec c hc, rfl⟩⟩

theorem restartsFrame_of_ne (h : b ≠ s.cfg.startByte) : restartsFrame s b = false := by
  simp [restartsFrame, h]

/-- Settles O33: the value `true` shows at a start marker alone; the transition of any other byte ends in the same fault or
writes the same registers and emits the same events. -/
theorem midframeRestartParameter : Obligations.MidframeRestartParameter := by
  intro s f hl hst hc hf
  have heng : f.eng = s.eng := by rw [hf]
  have hcfg : f.cfg.midframeResync = false := by rw [hf]
  have hrestart : restartsFrame s s.cfg.startByte = true := by simp [restartsFrame, hc, hst]
  refine ⟨completesWith_of_withEngine ((whenLive_of_live hl).trans (dispatchByte_of_restart hrestart)), fun b hb => ?_⟩
  rw [exec_dispatch_some hl (restartsFrame_of_ne hb),
    exec_dispatch_some (heng ▸ hl) (restartsFrame_of_false hcfg)]
  by_cases hout : s.eng.accessOutside
  · rw [transition_fault hout, transition_fault (s := f) (heng ▸ hout)]
  · rw [transition_field hst hout, transition_field (s := f) (heng ▸ hst) (heng ▸ hout), hf]
    rfl

/-! ### What a delivered message is (R108, R116) -/

variable {cmd len : Byte} {data : List Byte} {es fs : List OutEvent}

/-- The new events of a state are determined, however they are come by. -/
theorem mem_newEvents {x : OutEvent} (he : t.events = s.events ++ es) (hx : x ∈ es) (hfs : t.events = s.events ++ fs) :
    x ∈ fs :=
  List.append_cancel_left (he.symm.trans hfs) ▸ hx

theorem events_ne_of_mem {x : OutEvent} (he : t.events = s.events ++ es) (hx : x ∈ es) : t.events ≠ s.events := fun h =>
  List.not_mem_nil (mem_newEvents he hx (h.trans (List.append_nil _).symm))

theorem messageDecoded_mem_frameVerdict {k : Config} {cmd' len' : Byte} {q : List Byte} {c : Half}
    (h : .messageDecoded cmd len data ∈ frameVerdict k cmd' len' q c) :
    cmd = cmd' ∧ len = len' ∧ data = q ∧ crc16 data = c := by
  unfold frameVerdict at h
  split_ifs at h with hmatch
  · have hmsg : cmd = cmd' ∧ len = len' ∧ data = q := by simpa using h
    obtain ⟨rfl, rfl, rfl⟩ := hmsg
    exact ⟨rfl, rfl, rfl, hmatch.symm⟩
  · simp at h

/-- A received byte delivers a message only as the second checksum byte of a frame whose checksum matches. -/
theorem dispatchByte_delivers (h : dispatchByte b s = .next t) (he : t.events = s.events ++ es)
    (hm : .messageDecoded cmd len data ∈ es) :
    s.eng.msgLen.toNat ≤ s.eng.cap.toNat ∧ cmd = s.eng.msgCmd ∧ len = s.eng.msgLen ∧ data = receivedData s.eng ∧
      crc16 data = t.eng.rxCrc := by
  have hnew {fs : List OutEvent} (hfs : t.events = s.events ++ fs) := mem_newEvents he hm hfs
  have hquiet : t.events ≠ s.events := events_ne_of_mem he hm
  rcases dispatchByte_cases h with rfl | ⟨-, k, rfl⟩ | ⟨-, rfl⟩ | ⟨-, rfl⟩ | ⟨-, -, rfl⟩ | ⟨-, -, rfl⟩ |
    ⟨-, -, -, rfl⟩ | ⟨-, -, rfl⟩ | ⟨-, -, rfl⟩ | ⟨-, -, hcap, rfl⟩
  · exact absurd rfl hquiet
  · exact absurd (hnew rfl) (by simp)
  · exact absurd rfl hquiet
  · exact absurd rfl hquiet
  · exact absurd (hnew rfl) (by simp [nakEvent])
  · exact absurd rfl hquiet
  · exact absurd rfl hquiet
  · exact absurd rfl hquiet
  · exact absurd rfl hquiet
  · obtain ⟨hcmd, hlen, hdata, hcrc⟩ := messageDecoded_mem_frameVerdict (hnew rfl)
    exact ⟨hcap, hcmd, hlen, hdata, hcrc⟩

/-- An operation delivers a message only as DISPATCH of a byte. -/
theorem exec_delivers {i : Instr} (h : exec i s = .next t) (he : t.events = s.events ++ es)
    (hm : .messageDecoded cmd len data ∈ es) : ∃ b, i = .dispatch (some b) ∧ dispatchByte b s = .next t := by
  have hnew {fs : List OutEvent} (hfs : t.events = s.events ++ fs) := mem_newEvents he hm hfs
  have hquiet : t.events ≠ s.events := events_ne_of_mem he hm
  cases i with
  | init c => obtain ⟨-, rfl⟩ := execInit_eq_next.1 h; exact absurd rfl hquiet
  | dispatch input =>
    cases input with
    | none => obtain ⟨-, rfl⟩ := execDispatch_none_eq_next.1 h; exact absurd rfl hquiet
    | some b => exact ⟨b, rfl, (execDispatch_some_eq_next.1 h).2⟩
  | send cmd data => obtain ⟨-, rfl⟩ := execSend_eq_next.1 h; exact absurd (hnew rfl) (by simp)
  | sendAck => obtain ⟨-, rfl⟩ := execSendAck_eq_next.1 h; exact absurd (hnew rfl) (by simp [ackEvent])
  | sendNak => obtain ⟨-, rfl⟩ := execSendNak_eq_next.1 h; exact absurd (hnew rfl) (by simp [nakEvent])
  | checksum data => obtain ⟨-, rfl⟩ := execChecksum_eq_next.1 h; exact absurd (hnew rfl) (by simp)
  | abort => obtain ⟨-, rfl⟩ := execAbort_eq_next.1 h; exact absurd rfl hquiet
  | setCallbacks m => obtain ⟨-, rfl⟩ := execSetCallbacks_eq_next.1 h; exact absurd rfl hquiet

/-- Settles O38: a message is delivered by a received byte alone, as the received data with a matching checksum. -/
theorem deliveredMessagesAreValid : Obligations.DeliveredMessagesAreValid := by
  intro i s t es cmd len data h he hm
  obtain ⟨b, -, hb⟩ := exec_delivers h he hm
  obtain ⟨hcap, hcmd, rfl, rfl, hcrc⟩ := dispatchByte_delivers hb he hm
  have hlen : (receivedData s.eng).length = s.eng.msgLen.toNat := by simp [receivedData]
  exact ⟨hlen, hlen.trans_le hcap, hcmd, hcrc⟩

end Sys2Proof.Machine
end

section
/-! SUPPORT. The operations of 43_instance.md: nothing issued (R136), refusal before INIT (R134), ABORT (R133),
SET_CALLBACKS (R131), and what the bindings decide: which events are delivered, and nothing else (R132). -/

namespace Sys2Proof.Machine

variable {s t : State}

/-! ### Events do not depend on the bindings (R132) -/

/-- The registers after a byte in `Idle` (R101, R102). -/
def idleRegisters (k : Config) (e : Engine) (b : Byte) : Engine := if b = k.startByte then beginFrame e else e

/-- The events of a byte in `Idle` (R101, R102). -/
def idleEvents (k : Config) (b : Byte) : List OutEvent :=
  if b = k.startByte then []
  else if b = k.ackByte then [.ackReceived .positive]
  else if b = k.nakByte then [.ackReceived .negative]
  else []

theorem idleByte_eq (b : Byte) (s : State) :
    idleByte b s = .next ((s.withEngine (idleRegisters s.cfg s.eng b)).emit (idleEvents s.cfg b)) := by
  unfold idleByte idleRegisters idleEvents
  split_ifs <;> simp

theorem transition_idle (hst : s.eng.st = .idle) (b : Byte) :
    transition b s = .next ((s.withEngine (idleRegisters s.cfg s.eng b)).emit (idleEvents s.cfg b)) := by
  rw [transition, hst]
  exact idleByte_eq b s

theorem checksumResult_notMem_idleEvents (k : Config) (b : Byte) (v : Half) : .checksumResult v ∉ idleEvents k b := by
  unfold idleEvents
  split_ifs <;> simp

theorem checksumResult_notMem_fieldEvents (k : Config) (e : Engine) (b : Byte) (v : Half) :
    .checksumResult v ∉ fieldEvents k e b := by
  unfold fieldEvents
  split
  · split_ifs <;> simp
  · unfold frameVerdict
    split_ifs <;> simp
  · simp

@[simp] theorem State.withBindings_bindings_self (s : State) : s.withBindings s.bindings = s := rfl

/-- A byte that is answered is answered under any bindings, with the same registers and events. -/
theorem dispatchByte_of_withBindings {b : Byte} (h : dispatchByte b s = .next t) :
    ∃ e es, (∀ v, .checksumResult v ∉ es) ∧
      ∀ k, dispatchByte b (s.withBindings k) = .next (((s.withBindings k).withEngine e).emit es) := by
  cases hr : restartsFrame s b with
  | true =>
    refine ⟨beginFrame s.eng, [], fun _ => List.not_mem_nil, fun k => ?_⟩
    rw [State.emit_nil]
    exact dispatchByte_of_restart (s := s.withBindings k) hr
  | false =>
    have hk (k : CallbackSlots) : dispatchByte b (s.withBindings k) = transition b (s.withBindings k) :=
      dispatchByte_of_no_restart (s := s.withBindings k) hr
    by_cases hst : s.eng.st = .idle
    · exact ⟨idleRegisters s.cfg s.eng b, _, checksumResult_notMem_idleEvents s.cfg b,
        fun k => (hk k).trans (transition_idle (s := s.withBindings k) hst b)⟩
    · have hin : ¬ s.eng.accessOutside := by
        intro hout
        cases h.symm.trans ((hk s.bindings).trans (transition_fault hout))
      exact ⟨fieldRegisters s.eng b, _, checksumResult_notMem_fieldEvents s.cfg s.eng b,
        fun k => (hk k).trans (transition_field (s := s.withBindings k) hst hin b)⟩

/-- Whatever is bound, the operation leaves the registers `e` and emits `es`; of these it delivers what the bindings
receive. -/
def completesUnderAnyBindings (i : Instr) (s : State) (e : Engine) (es : List OutEvent) : Prop :=
  ∀ k, ∃ u, exec i (s.withBindings k) = .next u ∧ u.eng = e ∧ u.events = s.events ++ es ∧
    u.delivered = s.delivered ++ es.filter (slotReceives k)

theorem completesUnderAnyBindings_of_emit {i : Instr} {e : Engine} {es : List OutEvent}
    (h : ∀ k, exec i (s.withBindings k) = .next (((s.withBindings k).withEngine e).emit es)) :
    completesUnderAnyBindings i s e es :=
  fun k => ⟨_, h k, rfl, rfl, rfl⟩

/-- An operation that emits nothing may write the bindings too. -/
theorem completesUnderAnyBindings_of_quiet {i : Instr} {e : Engine} {f : CallbackSlots → CallbackSlots}
    (h : ∀ k, exec i (s.withBindings k) = .next (((s.withBindings k).withEngine e).withBindings (f k))) :
    completesUnderAnyBindings i s e [] :=
  fun k => ⟨_, h k, rfl, (List.append_nil _).symm, (List.append_nil _).symm⟩

/-- An operation that is answered is answered under any bindings, with the same registers and events, and CHECKSUM alone
emits a checksum result. -/
theorem exec_completesUnderAnyBindings {i : Instr} (h : exec i s = .next t) :
    ∃ e es, completesUnderAnyBindings i s e es ∧ ((∀ data, i ≠ .checksum data) → ∀ v, .checksumResult v ∉ es) := by
  cases i with
  | init c =>
    obtain ⟨hc, -⟩ := execInit_eq_next.1 h
    exact ⟨_, [], completesUnderAnyBindings_of_quiet fun _ => execInit_eq_next.2 ⟨hc, rfl⟩, by simp⟩
  | dispatch input =>
    cases input with
    | none =>
      obtain ⟨hl, -⟩ := execDispatch_none_eq_next.1 h
      exact ⟨s.eng, [], completesUnderAnyBindings_of_quiet fun _ => execDispatch_none_eq_next.2 ⟨hl, rfl⟩, by simp⟩
    | some b =>
      obtain ⟨hl, hb⟩ := execDispatch_some_eq_next.1 h
      obtain ⟨e, es, hes, hany⟩ := dispatchByte_of_withBindings hb
      exact ⟨e, es, completesUnderAnyBindings_of_emit fun k => execDispatch_some_eq_next.2 ⟨hl, hany k⟩, fun _ => hes⟩
  | send cmd data =>
    obtain ⟨hl, -⟩ := execSend_eq_next.1 h
    exact ⟨s.eng, (frameBytes s.cfg cmd data s.eng.cap.toNat).map .outByte,
      completesUnderAnyBindings_of_emit fun _ => execSend_eq_next.2 ⟨hl, rfl⟩, by simp⟩
  | sendAck =>
    obtain ⟨hl, -⟩ := execSendAck_eq_next.1 h
    exact ⟨s.eng, [ackEvent s], completesUnderAnyBindings_of_emit fun _ => execSendAck_eq_next.2 ⟨hl, rfl⟩,
      by simp [ackEvent]⟩
  | sendNak =>
    obtain ⟨hl, -⟩ := execSendNak_eq_next.1 h
    exact ⟨s.eng, [nakEvent s], completesUnderAnyBindings_of_emit fun _ => execSendNak_eq_next.2 ⟨hl, rfl⟩,
      by simp [nakEvent]⟩
  | checksum data =>
    obtain ⟨hl, -⟩ := execChecksum_eq_next.1 h
    exact ⟨s.eng, _, completesUnderAnyBindings_of_emit fun _ => execChecksum_eq_next.2 ⟨hl, rfl⟩,
      fun hne => absurd rfl (hne data)⟩
  | abort =>
    obtain ⟨hl, -⟩ := execAbort_eq_next.1 h
    exact ⟨{ s.eng with st := .idle }, [],
      completesUnderAnyBindings_of_quiet (f := id) fun _ => execAbort_eq_next.2 ⟨hl, rfl⟩, by simp⟩
  | setCallbacks m =>
    obtain ⟨hl, -⟩ := execSetCallbacks_eq_next.1 h
    exact ⟨s.eng, [], completesUnderAnyBindings_of_quiet fun _ => execSetCallbacks_eq_next.2 ⟨hl, rfl⟩, by simp⟩

/-- With every slot at its default only a checksum result is received. -/
theorem filter_slotReceives_none {es : List OutEvent} (h : ∀ v, .checksumResult v ∉ es) :
    es.filter (slotReceives CallbackSlots.none) = [] := by
  refine List.filter_eq_nil_iff.2 fun x hx => ?_
  cases x with
  | outByte b => exact nofun
  | messageDecoded cmd len data => exact nofun
  | ackReceived a => exact nofun
  | checksumResult v => exact absurd hx (h v)

/-- Settles O39: the state's own bindings are one choice among all, and the registers and events are those of every choice. -/
theorem deliveryFollowsTheBindings : Obligations.DeliveryFollowsTheBindings := by
  intro i s t h
  obtain ⟨e, es, hany, hchecksum⟩ := exec_completesUnderAnyBindings h
  obtain ⟨u, hu, heng, hevents, hdelivered⟩ := hany s.bindings
  obtain rfl : t = u := next_inj.1 (h.symm.trans hu)
  refine ⟨⟨es, hevents, hdelivered⟩, fun hdefault hne => ?_, fun k => ?_⟩
  · rw [hdelivered, hdefault]
    exact (congrArg _ (filter_slotReceives_none (hchecksum hne))).trans (List.append_nil _)
  · obtain ⟨w, hw, heng', hevents', -⟩ := hany k
    exact ⟨w, hw, hevents'.trans hevents.symm, heng'.trans heng.symm⟩

/-! ### Nothing issued (R136), and before INIT (R134) -/

/-- Settles O7: from an empty port nothing is taken. -/
theorem nothingIssuedHoldsTheState : Obligations.NothingIssuedHoldsTheState := fun s h => by
  simp only [step, takeTransaction_nil h]

/-- Every operation but INIT makes the `live` check first. -/
theorem exec_of_not_live {i : Instr} (hl : s.eng.live = false) (hi : ∀ c, i ≠ .init c) :
    exec i s = .refused .notInitialized := by
  cases i with
  | init c => exact absurd rfl (hi c)
  | dispatch input => cases input <;> exact whenLive_of_not_live hl
  | send cmd data => exact whenLive_of_not_live hl
  | sendAck => exact whenLive_of_not_live hl
  | sendNak => exact whenLive_of_not_live hl
  | checksum data => exact whenLive_of_not_live hl
  | abort => exact whenLive_of_not_live hl
  | setCallbacks m => exact whenLive_of_not_live hl

/-- Settles O11: the `live` check refuses, and settling a refusal records it. -/
theorem beforeInitEveryOtherOperationIsRefused : Obligations.BeforeInitEveryOtherOperationIsRefused := fun i s hl hi => by
  rw [exec_of_not_live hl hi]
  exact ⟨rfl, rfl⟩

/-! ### ABORT (R133) and SET_CALLBACKS (R131) -/

/-- Settles O15: ABORT writes `st` alone, which in `Idle` is what it was. -/
theorem abortReturnsToIdle : Obligations.AbortReturnsToIdle := by
  refine fun s => ⟨fun hl => ?_, fun hl hst => ?_, fun hl => exec_of_not_live hl nofun⟩
  · exact completesWith_of_withEngine (execAbort_eq_next.2 ⟨hl, rfl⟩)
  · refine execAbort_eq_next.2 ⟨hl, ?_⟩
    rw [← hst, State.withEngine_eng_self]

/-- A selected slot is replaced and any other is kept. -/
theorem slots_union_eq_ite (k m : CallbackSlots) :
    k.union m = { out := if m.out then true else k.out, inp := if m.inp then true else k.inp,
                  msg := if m.msg then true else k.msg, ack := if m.ack then true else k.ack } := by
  have slot (a b : Bool) : (a || b) = if b then true else a := by cases b <;> simp
  simp only [CallbackSlots.union, slot]

@[simp] theorem slots_union_none (k : CallbackSlots) : k.union CallbackSlots.none = k := by
  simp [CallbackSlots.union, CallbackSlots.none]

/-- Settles O16: SET_CALLBACKS writes the union of the bindings and the mask, and the decoder tests the mask byte's
reserved bits. -/
theorem setCallbacksReplacesTheSelectedSlots : Obligations.SetCallbacksReplacesTheSelectedSlots := by
  refine fun m s => ⟨fun hl => ?_, fun hl => ?_, fun hl => exec_of_not_live hl nofun, fun b rest hb => ?_⟩
  · exact ⟨_, execSetCallbacks_eq_next.2 ⟨hl, rfl⟩, rfl, rfl, slots_union_eq_ite s.bindings m, rfl, rfl, rfl, rfl⟩
  · refine execSetCallbacks_eq_next.2 ⟨hl, ?_⟩
    change s = s.withBindings (s.bindings.union CallbackSlots.none)
    rw [slots_union_none, State.withBindings_bindings_self]
  · exact (decode_setCallbacks _).trans (if_neg hb)

end Sys2Proof.Machine
end

section
/-! SUPPORT. The exceptions family of 60_exceptions.md: the checks before an operation and their order (R143, R145), the
one fault (R144), the events of one DISPATCH (R148), and what a run never clears (R142). -/

namespace Sys2Proof.Machine

variable {s t u : State}

/-! ### The one fault (R144) -/

/-- INIT faults exactly when its operand is no capacity (R130). -/
theorem execInit_eq_fault {c : Nat} : execInit c s = .fault .capacityInvalid ↔ c = 0 ∨ maxCapacity < c := by
  unfold execInit
  split
  · next hc => exact iff_of_true rfl hc
  · next hc => exact iff_of_false nofun hc

/-- In a live state that meets the invariant every operation but INIT ends normally. -/
theorem exec_answers_of_live {i : Instr} (h : s.eng.invariant) (hl : s.eng.live = true) (hi : ∀ c, i ≠ .init c) :
    ∃ t, exec i s = .next t := by
  cases i with
  | init c => exact absurd rfl (hi c)
  | dispatch input =>
    cases input with
    | none => exact ⟨_, whenLive_of_live hl⟩
    | some b =>
      obtain ⟨t, ht⟩ := dispatchByte_answers h b
      exact ⟨t, (whenLive_of_live hl).trans ht⟩
  | send cmd data => exact ⟨_, whenLive_of_live hl⟩
  | sendAck => exact ⟨_, whenLive_of_live hl⟩
  | sendNak => exact ⟨_, whenLive_of_live hl⟩
  | checksum data => exact ⟨_, whenLive_of_live hl⟩
  | abort => exact ⟨_, whenLive_of_live hl⟩
  | setCallbacks m => exact ⟨_, whenLive_of_live hl⟩

/-- Under the invariant INIT alone faults: any other operation is refused before INIT and ends normally after it. -/
theorem init_of_exec_eq_fault {i : Instr} {f : Fault} (h : s.eng.invariant) (hf : exec i s = .fault f) :
    ∃ c, i = .init c := by
  by_contra! hi
  cases hl : s.eng.live with
  | false => cases hf.symm.trans (exec_of_not_live hl hi)
  | true =>
    obtain ⟨t, ht⟩ := exec_answers_of_live h hl hi
    cases hf.symm.trans ht

/-- Settles O12: the invariant rules out the model's own fault, INIT alone is left, and settling records its fault. -/
theorem capacityInvalidIsTheOnlyFault : Obligations.CapacityInvalidIsTheOnlyFault := by
  refine fun i s h => ⟨fun f hf => ?_, ⟨fun hf => ?_, ?_⟩, fun hf => ?_⟩
  · cases f with
    | capacityInvalid => rfl
    | payloadIndexOutOfRange => exact absurd hf (exec_ne_payloadFault h i)
  · obtain ⟨c, rfl⟩ := init_of_exec_eq_fault h hf
    exact ⟨c, rfl, execInit_eq_fault.1 hf⟩
  · rintro ⟨c, rfl, hc⟩
    exact execInit_eq_fault.2 hc
  · rw [hf]
    rfl

/-! ### The checks before an operation (R143, R145) -/

/-- Settles O9: under a valid configuration the mark is looked at next. -/
theorem overlappingOperationIsRefused : Obligations.OverlappingOperationIsRefused := fun _ _ _ hport hcfg =>
  step_of_refused (takeTransaction_overlapping hport hcfg)

/-- Settles O10: the first two checks are made in taking the transaction, the other two by the decoded operation, whose
refusal or fault the step records. -/
theorem checksAreMadeInOrder : Obligations.ChecksAreMadeInOrder := by
  rintro s _ bs tail rest i c e hport rfl
  refine ⟨fun hcfg => ?_, fun hcfg hd => ?_, fun hcfg hd hi hl => ?_, fun hcfg hd hc => ?_⟩
  · exact step_of_refused (takeTransaction_invalidConfig hport hcfg)
  · exact step_of_refused (takeTransaction_undecodable hport hcfg hd)
  · obtain ⟨-, -, -, hrefused⟩ := stepRunsTheDecodedOperation s _ bs tail rest i hport hcfg hd rfl
    exact hrefused _ (exec_of_not_live hl hi)
  · obtain ⟨-, hfault, -⟩ := stepRunsTheDecodedOperation s _ bs tail rest (.init c) hport hcfg hd rfl
    exact hfault (execInit_eq_fault.2 hc)

/-! ### The events of one DISPATCH (R116, R148) -/

/-- Settles O37: a transition emits nothing, one event, or a frame's verdict. -/
theorem dispatchEmitsAtMostTwoEvents : Obligations.DispatchEmitsAtMostTwoEvents := by
  intro input s t h
  cases input with
  | none =>
    obtain ⟨-, rfl⟩ := execDispatch_none_eq_next.1 h
    exact ⟨[], (List.append_nil _).symm, .inl rfl⟩
  | some b =>
    obtain ⟨-, hb⟩ := execDispatch_some_eq_next.1 h
    have quiet : s.events = s.events ++ [] := (List.append_nil _).symm
    rcases dispatchByte_cases hb with rfl | ⟨-, k, rfl⟩ | ⟨-, rfl⟩ | ⟨-, rfl⟩ | ⟨-, -, rfl⟩ | ⟨-, -, rfl⟩ |
      ⟨-, -, -, rfl⟩ | ⟨-, -, rfl⟩ | ⟨-, -, rfl⟩ | ⟨-, -, -, rfl⟩
    · exact ⟨[], quiet, .inl rfl⟩
    · exact ⟨_, rfl, .inr (.inl ⟨k, rfl⟩)⟩
    · exact ⟨[], quiet, .inl rfl⟩
    · exact ⟨[], quiet, .inl rfl⟩
    · exact ⟨_, rfl, .inr (.inr (.inl rfl))⟩
    · exact ⟨[], quiet, .inl rfl⟩
    · exact ⟨[], quiet, .inl rfl⟩
    · exact ⟨[], quiet, .inl rfl⟩
    · exact ⟨[], quiet, .inl rfl⟩
    · refine ⟨_, rfl, ?_⟩
      split
      · exact .inr (.inr (.inr ⟨_, _, _, rfl⟩))
      · exact .inr (.inr (.inl rfl))

/-! ### What a run never clears (R48, R142) -/

/-- `t` keeps the configuration of `s` and everything `s` has emitted and recorded. -/
def State.extendedBy (s t : State) : Prop := s.events <+: t.events ∧ s.record <+: t.record ∧ t.cfg = s.cfg

theorem State.extendedBy_refl (s : State) : s.extendedBy s := ⟨List.prefix_rfl, List.prefix_rfl, rfl⟩

theorem State.extendedBy.trans (h : s.extendedBy t) (h' : t.extendedBy u) : s.extendedBy u := by
  obtain ⟨hev, hrec, hcfg⟩ := h
  obtain ⟨hev', hrec', hcfg'⟩ := h'
  exact ⟨hev.trans hev', hrec.trans hrec', hcfg'.trans hcfg⟩

/-- An operation writes neither the configuration nor the record, and only adds events. -/
theorem exec_extendedBy {i : Instr} (h : exec i s = .next t) : s.extendedBy t := by
  obtain ⟨hcfg, -, hrecord, -⟩ := onlyTheNamedOperationsWrite i s t h
  obtain ⟨⟨es, hevents, -⟩, -⟩ := deliveryFollowsTheBindings i s t h
  exact ⟨⟨es, hevents.symm⟩, ⟨[], (List.append_nil _).trans hrecord.symm⟩, hcfg⟩

/-- A step runs an operation or adds a record; taking the transaction touches the port alone. -/
theorem step_extendedBy (h : step s = .next t) : s.extendedBy t := by
  rcases step_cases h with rfl | ⟨p, x, rfl⟩ | ⟨p, i, he⟩
  · exact t.extendedBy_refl
  · exact ⟨List.prefix_rfl, List.prefix_append _ _, rfl⟩
  · exact exec_extendedBy (s := s.withPort p) he

/-- A preorder that relates the ends of every step relates the ends of every run. -/
theorem run_rel_of_step {M : Host.Core} {R : M.State → M.State → Prop} (hrefl : ∀ a, R a a)
    (htrans : ∀ {a b c}, R a b → R b c → R a c) (hstep : ∀ {a b}, M.step a = .next b → R a b)
    {n : Nat} {a b : M.State} (h : M.run n a = .next b) : R a b := by
  induction n generalizing a with
  | zero => cases h; exact hrefl _
  | succ n ih =>
    simp only [Host.Core.run] at h
    split at h
    · next hs => exact htrans (hstep hs) (ih h)
    · cases h
    · cases h

/-- Settles O40: every step extends what it starts from, and extension composes along the run. -/
theorem nothingRecordedIsEverCleared : Obligations.NothingRecordedIsEverCleared := by
  intro n s t h
  obtain ⟨⟨es, hes⟩, ⟨rs, hrs⟩, hcfg⟩ :=
    run_rel_of_step (M := Sys2Proof.core) State.extendedBy_refl State.extendedBy.trans step_extendedBy h
  exact ⟨es, rs, hes.symm, hrs.symm, hcfg⟩

end Sys2Proof.Machine
end

section
/-! SUPPORT. The reset and hazards family of 70_reset_and_hazards.md: a frame too long for the peer (R163), and the
configuration a host must fix before any operation (R162). -/

namespace Sys2Proof.Machine

variable {s t : State}

/-! ### A frame too long for the peer (R163) -/

/-- Settles O48: LEN is the number of bytes sent, at most 255 and above the receiver's capacity. -/
theorem frameTooLongForThePeerIsNaked : Obligations.FrameTooLongForThePeerIsNaked := by
  intro s cmd data cap hr hcap hlong
  have hlen : (BitVec.ofNat 8 (min data.length cap)).toNat = min data.length cap := Nat.mod_eq_of_lt (by omega)
  rw [frameBytes_eq]
  exact feedingGives_lengthOverCapacity hr (hlong.trans_eq hlen.symm)

/-! ### The refused configuration (R162) -/

/-- A received byte is answered or faults: no transition of the parser refuses. -/
theorem dispatchByte_ne_refused (b : Byte) (r : Refusal) : dispatchByte b s ≠ .refused r := by
  cases hr : restartsFrame s b with
  | true => rw [dispatchByte_of_restart hr]; exact nofun
  | false =>
    rw [dispatchByte_of_no_restart hr]
    by_cases hst : s.eng.st = .idle
    · rw [transition_idle hst]; exact nofun
    · by_cases hout : s.eng.accessOutside
      · rw [transition_fault hout]; exact nofun
      · rw [transition_field hst hout]; exact nofun

/-- An effect that refuses nothing of its own is refused by the `live` check alone (R134). -/
theorem eq_notInitialized_of_whenLive_eq_refused {x : Result} {r : Refusal} (h : whenLive s x = .refused r)
    (hx : x ≠ .refused r) : r = .notInitialized := by
  cases hl : s.eng.live with
  | true => exact absurd ((whenLive_of_live hl).symm.trans h) hx
  | false => cases (whenLive_of_not_live hl).symm.trans h; rfl

/-- The one refusal of an operation is NOT_INITIALIZED: past the `live` check none refuses, and INIT, which skips the
check, answers or faults. -/
theorem eq_notInitialized_of_exec_eq_refused {i : Instr} {r : Refusal} (h : exec i s = .refused r) :
    r = .notInitialized := by
  cases i with
  | init c =>
    by_cases hc : c = 0 ∨ maxCapacity < c
    · cases (execInit_eq_fault.2 hc).symm.trans h
    · cases (execInit_eq_next.2 ⟨by omega, rfl⟩).symm.trans h
  | dispatch input =>
    cases input with
    | none => exact eq_notInitialized_of_whenLive_eq_refused h nofun
    | some b => exact eq_notInitialized_of_whenLive_eq_refused h (dispatchByte_ne_refused b r)
  | send cmd data => exact eq_notInitialized_of_whenLive_eq_refused h nofun
  | sendAck => exact eq_notInitialized_of_whenLive_eq_refused h nofun
  | sendNak => exact eq_notInitialized_of_whenLive_eq_refused h nofun
  | checksum data => exact eq_notInitialized_of_whenLive_eq_refused h nofun
  | abort => exact eq_notInitialized_of_whenLive_eq_refused h nofun
  | setCallbacks m => exact eq_notInitialized_of_whenLive_eq_refused h nofun

/-- What running and settling an operation records: nothing, INIT's fault, or the refusal before INIT. -/
theorem settle_exec_record {i : Instr} (h : settle i s (exec i s) = .next t) :
    t.record = s.record ∨ t.record = s.record ++ [.fault .capacityInvalid i] ∨
      t.record = s.record ++ [.refusal .notInitialized] := by
  cases hx : exec i s with
  | next u =>
    obtain ⟨-, -, hrec, -⟩ := onlyTheNamedOperationsWrite i s u hx
    rw [hx] at h
    cases h
    exact .inl hrec
  | fault f =>
    rw [hx] at h
    cases f with
    | capacityInvalid => cases h; exact .inr (.inl rfl)
    | payloadIndexOutOfRange => cases h
  | refused r =>
    obtain rfl := eq_notInitialized_of_exec_eq_refused hx
    rw [hx] at h
    cases h
    exact .inr (.inr rfl)

/-- Under a valid configuration the step that takes a transaction adds no CONFIG_INVALID to the record. -/
theorem step_record_of_validConfig {x : Transaction} {rest : List Transaction} (hport : s.port = x :: rest)
    (hcfg : validConfig s.cfg) (h : step s = .next t) :
    ∃ rs, t.record = s.record ++ rs ∧ .refusal .configInvalid ∉ rs := by
  obtain ⟨bs, overlapping⟩ := x
  cases overlapping with
  | true =>
    cases (step_of_refused (takeTransaction_overlapping hport hcfg)).symm.trans h
    exact ⟨_, rfl, by simp⟩
  | false =>
    cases hd : decode bs with
    | error e =>
      cases (step_of_refused (takeTransaction_undecodable hport hcfg hd)).symm.trans h
      exact ⟨_, rfl, by simp⟩
    | ok d =>
      obtain ⟨i, tail⟩ := d
      rcases settle_exec_record ((step_of_operation hport hcfg hd).symm.trans h) with hrec | hrec | hrec
      · exact ⟨[], hrec.trans (List.append_nil _).symm, by simp⟩
      · exact ⟨_, hrec, by simp⟩
      · exact ⟨_, hrec, by simp⟩

/-- Settles O54: the value `true` fails the configuration check, whatever the markers are; under a valid configuration
the records a step adds do not hold CONFIG_INVALID. -/
theorem midframeResyncConfigurationIsRefused : Obligations.MidframeResyncConfigurationIsRefused := by
  intro s x rest hport
  refine ⟨fun htrue => ?_, fun hmarkers hfalse t h hrec => ?_⟩
  · refine step_of_refused (takeTransaction_invalidConfig hport ?_)
    rintro ⟨-, hfalse⟩
    cases hfalse.symm.trans htrue
  · obtain ⟨rs, hrs, hnot⟩ := step_record_of_validConfig hport ⟨hmarkers, hfalse⟩ h
    obtain rfl := List.append_cancel_left (hrs.symm.trans hrec)
    exact hnot (List.mem_singleton_self _)

end Sys2Proof.Machine
end
